-- ==== Sys2Proof/Word.lean ====
section
/-! DEFINITION. The word types of the CHIP-8 CORE (00_scope.md rules R6, R10, R11): every register value is an
unsigned number of a stated width, bit 0 the least significant. -/

namespace Sys2Proof

/-- An 8-bit value: a V register, a timer, a byte of memory, the literal `NN`. -/
abbrev Byte := BitVec 8

/-- A 16-bit value: an opcode, `I`, `pc`, a stack entry. -/
abbrev Word := BitVec 16

/-- The index of a general register, V0 to VF (10_state.md rule R21). -/
abbrev Reg := Fin 16

/-- The number of a key, 0x0 to 0xF (10_state.md rule R29). -/
abbrev Key := Fin 16

end Sys2Proof
end

