-- ==== Sys2Proof/Syntax.lean ====
section
/-! DEFINITION. The instructions: one constructor per row of the opcode map (30_encoding.md rule R95) and one for
the no-op class (46_unrecognized.md rule R206). The pattern of the row stands beside each constructor. -/

namespace Sys2Proof

/-- One instruction, its operand fields pulled out of the word (30_encoding.md rules R91, R98). -/
inductive Instr where
  /-- 00E0 -/
  | cls
  /-- 00EE -/
  | ret
  /-- 1NNN -/
  | jp (nnn : BitVec 12)
  /-- 2NNN -/
  | call (nnn : BitVec 12)
  /-- 3XNN -/
  | seNN (x : Reg) (nn : Byte)
  /-- 4XNN -/
  | sneNN (x : Reg) (nn : Byte)
  /-- 5XY0 -/
  | seVY (x y : Reg)
  /-- 6XNN -/
  | ldNN (x : Reg) (nn : Byte)
  /-- 7XNN -/
  | addNN (x : Reg) (nn : Byte)
  /-- 8XY0 -/
  | ldVY (x y : Reg)
  /-- 8XY1 -/
  | orVY (x y : Reg)
  /-- 8XY2 -/
  | andVY (x y : Reg)
  /-- 8XY3 -/
  | xorVY (x y : Reg)
  /-- 8XY4 -/
  | addVY (x y : Reg)
  /-- 8XY5 -/
  | subVY (x y : Reg)
  /-- 8XY6 -/
  | shrVY (x y : Reg)
  /-- 8XY7 -/
  | subnVY (x y : Reg)
  /-- 8XYE -/
  | shlVY (x y : Reg)
  /-- 9XY0 -/
  | sneVY (x y : Reg)
  /-- ANNN -/
  | ldI (nnn : BitVec 12)
  /-- BNNN -/
  | jpV0 (nnn : BitVec 12)
  /-- CXNN -/
  | rnd (x : Reg) (nn : Byte)
  /-- DXYN -/
  | drw (x y : Reg) (n : BitVec 4)
  /-- EX9E -/
  | skp (x : Reg)
  /-- EXA1 -/
  | sknp (x : Reg)
  /-- FX07 -/
  | ldVXDT (x : Reg)
  /-- FX0A -/
  | ldVXK (x : Reg)
  /-- FX15 -/
  | ldDTVX (x : Reg)
  /-- FX18 -/
  | ldSTVX (x : Reg)
  /-- FX1E -/
  | addIVX (x : Reg)
  /-- FX29 -/
  | ldFVX (x : Reg)
  /-- FX33 -/
  | ldBVX (x : Reg)
  /-- FX55 -/
  | storeVX (x : Reg)
  /-- FX65 -/
  | loadVX (x : Reg)
  /-- Any other word: a no-op. It carries the word, so that no bit of an encoding is lost (log 18). -/
  | nop (w : Word)
deriving DecidableEq, Repr

end Sys2Proof
end

