-- ==== Sys2Proof/WellFormed.lean ====
section
/-! DEFINITION. Which instructions are well formed. The operand types leave one check: the word a no-op carries
must be one that no row of the opcode map selects (46_unrecognized.md rule R207). -/

namespace Sys2Proof

/-- The sub-selectors `N` of family 8 that name an instruction (30_encoding.md rule R94). -/
def definedN8 : List Nat := [0x0, 0x1, 0x2, 0x3, 0x4, 0x5, 0x6, 0x7, 0xE]

/-- The sub-selectors `NN` of family E that name an instruction (30_encoding.md rule R94). -/
def definedNNE : List Nat := [0x9E, 0xA1]

/-- The sub-selectors `NN` of family F that name an instruction (30_encoding.md rule R94). -/
def definedNNF : List Nat := [0x07, 0x0A, 0x15, 0x18, 0x1E, 0x29, 0x33, 0x55, 0x65]

/-- The classes of unrecognized words, in the arithmetic of the word's value (46_unrecognized.md rule R207): the
family is the value divided by 4096, `NN` its remainder by 256, `N` its remainder by 16. -/
def unrecognized (w : Word) : Bool :=
  let v := w.toNat
  (v / 4096 = 0 && v ≠ 0x00E0 && v ≠ 0x00EE)
    || (v / 4096 = 5 && v % 16 ≠ 0)
    || (v / 4096 = 8 && !definedN8.contains (v % 16))
    || (v / 4096 = 9 && v % 16 ≠ 0)
    || (v / 4096 = 0xE && !definedNNE.contains (v % 256))
    || (v / 4096 = 0xF && !definedNNF.contains (v % 256))

/-- An instruction is well formed when a no-op carries an unrecognized word; every operand value of every other
instruction is legal (30_encoding.md rule R98). -/
def Instr.wf : Instr → Bool
  | .nop w => unrecognized w
  | _ => true

end Sys2Proof
end

