-- ==== Sys2Proof/Decode.lean ====
section
/-! DEFINITION. The Instruction Decoder (30_encoding.md rules R90 to R97) and the encoder written from the same
opcode map (rule R95). Decoding a word is total; decoding a list of bytes is refused by name when fewer than two
bytes are there. -/

namespace Sys2Proof

/-- The register index in a 4-bit field. -/
def regOf (b : BitVec 4) : Reg := ⟨b.toNat, b.isLt⟩

/-- The 4-bit field that holds a register index. -/
def fieldOf (r : Reg) : BitVec 4 := BitVec.ofNat 4 r.val

/-- `F = opcode[15:12]` (30_encoding.md rule R91). -/
def familyField (w : Word) : BitVec 4 := w.extractLsb' 12 4

/-- `X = opcode[11:8]` (30_encoding.md rule R91). -/
def xField (w : Word) : Reg := regOf (w.extractLsb' 8 4)

/-- `Y = opcode[7:4]` (30_encoding.md rule R91). -/
def yField (w : Word) : Reg := regOf (w.extractLsb' 4 4)

/-- `N = opcode[3:0]` (30_encoding.md rule R91). -/
def nField (w : Word) : BitVec 4 := w.extractLsb' 0 4

/-- `NN = opcode[7:0]` (30_encoding.md rule R91). -/
def nnField (w : Word) : Byte := w.extractLsb' 0 8

/-- `NNN = opcode[11:0]` (30_encoding.md rule R91). -/
def nnnField (w : Word) : BitVec 12 := w.extractLsb' 0 12

/-- Family 0: the whole word selects (30_encoding.md rules R94, R96). -/
def decodeFamily0 (w : Word) : Instr :=
  if w = 0x00E0#16 then .cls else if w = 0x00EE#16 then .ret else .nop w

/-- Family 8: `N` selects (30_encoding.md rule R94). -/
def decodeFamily8 (w : Word) : Instr :=
  match nField w with
  | 0x0#4 => .ldVY (xField w) (yField w)
  | 0x1#4 => .orVY (xField w) (yField w)
  | 0x2#4 => .andVY (xField w) (yField w)
  | 0x3#4 => .xorVY (xField w) (yField w)
  | 0x4#4 => .addVY (xField w) (yField w)
  | 0x5#4 => .subVY (xField w) (yField w)
  | 0x6#4 => .shrVY (xField w) (yField w)
  | 0x7#4 => .subnVY (xField w) (yField w)
  | 0xE#4 => .shlVY (xField w) (yField w)
  | _ => .nop w

/-- Family E: `NN` selects (30_encoding.md rule R94). -/
def decodeFamilyE (w : Word) : Instr :=
  match nnField w with
  | 0x9E#8 => .skp (xField w)
  | 0xA1#8 => .sknp (xField w)
  | _ => .nop w

/-- Family F: `NN` selects (30_encoding.md rule R94). -/
def decodeFamilyF (w : Word) : Instr :=
  match nnField w with
  | 0x07#8 => .ldVXDT (xField w)
  | 0x0A#8 => .ldVXK (xField w)
  | 0x15#8 => .ldDTVX (xField w)
  | 0x18#8 => .ldSTVX (xField w)
  | 0x1E#8 => .addIVX (xField w)
  | 0x29#8 => .ldFVX (xField w)
  | 0x33#8 => .ldBVX (xField w)
  | 0x55#8 => .storeVX (xField w)
  | 0x65#8 => .loadVX (xField w)
  | _ => .nop w

/-- The dispatch of a word: the family first, then the family's sub-selector (30_encoding.md rule R94); what no row
selects is a no-op (rule R97). `mode` plays no part (rule R100). -/
def decodeWord (w : Word) : Instr :=
  match familyField w with
  | 0x0#4 => decodeFamily0 w
  | 0x1#4 => .jp (nnnField w)
  | 0x2#4 => .call (nnnField w)
  | 0x3#4 => .seNN (xField w) (nnField w)
  | 0x4#4 => .sneNN (xField w) (nnField w)
  | 0x5#4 => if nField w = 0#4 then .seVY (xField w) (yField w) else .nop w
  | 0x6#4 => .ldNN (xField w) (nnField w)
  | 0x7#4 => .addNN (xField w) (nnField w)
  | 0x8#4 => decodeFamily8 w
  | 0x9#4 => if nField w = 0#4 then .sneVY (xField w) (yField w) else .nop w
  | 0xA#4 => .ldI (nnnField w)
  | 0xB#4 => .jpV0 (nnnField w)
  | 0xC#4 => .rnd (xField w) (nnField w)
  | 0xD#4 => .drw (xField w) (yField w) (nField w)
  | 0xE#4 => decodeFamilyE w
  | _ => decodeFamilyF w

/-- Why a list of bytes is not an instruction. -/
inductive DecodeError where
  /-- Fewer than the two bytes of an instruction are there (30_encoding.md rule R90). -/
  | truncated
deriving DecidableEq, Repr

/-- Two bytes as an opcode, the first (lower) one the more significant half (20_memory.md rule R64). -/
def wordOfBytes (hi lo : Byte) : Word := hi ++ lo

/-- The more significant byte of an opcode, the one at the lower address. -/
def highByte (w : Word) : Byte := w.extractLsb' 8 8

/-- The less significant byte of an opcode, the one at the higher address. -/
def lowByte (w : Word) : Byte := w.extractLsb' 0 8

/-- The instruction at the head of a list of bytes, with the bytes after it. -/
def decodeBytes : List Byte → Except DecodeError (Instr × List Byte)
  | hi :: lo :: rest => .ok (decodeWord (wordOfBytes hi lo), rest)
  | _ => .error .truncated

/-- `F`, `X` and `NN` as a word (format XNN of 30_encoding.md rule R92). -/
def encodeXNN (f : BitVec 4) (x : Reg) (nn : Byte) : Word := f ++ fieldOf x ++ nn

/-- `F`, `X`, `Y` and `N` as a word (formats XYN and XYN-literal of 30_encoding.md rule R92). -/
def encodeXYN (f : BitVec 4) (x y : Reg) (n : BitVec 4) : Word := f ++ fieldOf x ++ fieldOf y ++ n

/-- `F` and `NNN` as a word (format NNN of 30_encoding.md rule R92). -/
def encodeNNN (f : BitVec 4) (nnn : BitVec 12) : Word := f ++ nnn

/-- The word of an instruction (30_encoding.md rules R92, R95). -/
def encode : Instr → Word
  | .cls => 0x00E0#16
  | .ret => 0x00EE#16
  | .jp nnn => encodeNNN 0x1#4 nnn
  | .call nnn => encodeNNN 0x2#4 nnn
  | .seNN x nn => encodeXNN 0x3#4 x nn
  | .sneNN x nn => encodeXNN 0x4#4 x nn
  | .seVY x y => encodeXYN 0x5#4 x y 0x0#4
  | .ldNN x nn => encodeXNN 0x6#4 x nn
  | .addNN x nn => encodeXNN 0x7#4 x nn
  | .ldVY x y => encodeXYN 0x8#4 x y 0x0#4
  | .orVY x y => encodeXYN 0x8#4 x y 0x1#4
  | .andVY x y => encodeXYN 0x8#4 x y 0x2#4
  | .xorVY x y => encodeXYN 0x8#4 x y 0x3#4
  | .addVY x y => encodeXYN 0x8#4 x y 0x4#4
  | .subVY x y => encodeXYN 0x8#4 x y 0x5#4
  | .shrVY x y => encodeXYN 0x8#4 x y 0x6#4
  | .subnVY x y => encodeXYN 0x8#4 x y 0x7#4
  | .shlVY x y => encodeXYN 0x8#4 x y 0xE#4
  | .sneVY x y => encodeXYN 0x9#4 x y 0x0#4
  | .ldI nnn => encodeNNN 0xA#4 nnn
  | .jpV0 nnn => encodeNNN 0xB#4 nnn
  | .rnd x nn => encodeXNN 0xC#4 x nn
  | .drw x y n => encodeXYN 0xD#4 x y n
  | .skp x => encodeXNN 0xE#4 x 0x9E#8
  | .sknp x => encodeXNN 0xE#4 x 0xA1#8
  | .ldVXDT x => encodeXNN 0xF#4 x 0x07#8
  | .ldVXK x => encodeXNN 0xF#4 x 0x0A#8
  | .ldDTVX x => encodeXNN 0xF#4 x 0x15#8
  | .ldSTVX x => encodeXNN 0xF#4 x 0x18#8
  | .addIVX x => encodeXNN 0xF#4 x 0x1E#8
  | .ldFVX x => encodeXNN 0xF#4 x 0x29#8
  | .ldBVX x => encodeXNN 0xF#4 x 0x33#8
  | .storeVX x => encodeXNN 0xF#4 x 0x55#8
  | .loadVX x => encodeXNN 0xF#4 x 0x65#8
  | .nop w => w

/-- The bytes of an instruction as they lie in memory, the more significant first (30_encoding.md rule R90). -/
def encodeBytes (i : Instr) : List Byte := [highByte (encode i), lowByte (encode i)]

/-- The opcode whose low `nbits` bits are those of `w`, every bit above them 0. -/
def tableWord (nbits w : Nat) : Word := BitVec.ofNat 16 (w % 2 ^ nbits)

/-- The instruction the decoder reads from the bytes of a table row's word. -/
def decodeTableWord (nbits w : Nat) : Option Instr :=
  match decodeBytes [highByte (tableWord nbits w), lowByte (tableWord nbits w)] with
  | .ok (i, _) => some i
  | .error _ => none

end Sys2Proof
end

