-- ==== Sys2Proof/Config.lean ====
section
/-! DEFINITION. What an implementation fixes (00_scope.md rule R6): the sizes the spec states, the types of the
open parameters, and the free value of CXNN. The open parameters themselves are a field of State (`params`), so
that a statement over all states holds for every value of them (log 2). -/

namespace Sys2Proof

/-- The two behaviour modes (00_scope.md rule R2, 10_state.md rule R31). -/
inductive Mode where
  | legacy
  | modern
deriving DecidableEq, Repr

/-- AUDIO_GATE_SAMPLE: whether the tone level is taken from the sound timer after or before the tick's decrement
(60_exceptions.md rule R235). -/
inductive AudioGateSample where
  | postDecrement
  | preDecrement
deriving DecidableEq, Repr

/-- The open parameters of an instance that the machine consults while it runs (00_scope.md rule R6). -/
structure Params where
  /-- STACK_DEPTH, at least 1 (92_eei_decisions.md D1; `legalParams` in Machine/Params.lean says so). -/
  stackDepth : Nat
  /-- STEPS_PER_FRAME, 0 allowed (92_eei_decisions.md D16). -/
  stepsPerFrame : Nat
  /-- AUDIO_GATE_SAMPLE (92_eei_decisions.md D15). -/
  audioGate : AudioGateSample
  /-- Whether the host hands the display over in a frame that ended in a fault (60_exceptions.md rule R238, left to
  the host by 93_implementation_defined.md U25). -/
  renderAfterFault : Bool
deriving DecidableEq, Repr

/-- MEM_SIZE: the addresses are 0x000 to 0xFFF (00_scope.md rule R6). -/
def memSize : Nat := 0x1000

/-- FONT_SIZE: 16 glyphs of 5 bytes (00_scope.md rule R6). -/
def fontSize : Nat := 80

/-- PROGRAM_BASE (00_scope.md rule R6). -/
def programBase : Nat := 0x200

/-- MAX_ROM: 4096 − 512 bytes (00_scope.md rule R6). -/
def maxRom : Nat := 3584

/-- DISPLAY_W (00_scope.md rule R6). -/
def displayWidth : Nat := 64

/-- DISPLAY_H (00_scope.md rule R6). -/
def displayHeight : Nat := 32

/-- The free byte that the `n`-th CXNN of a run draws: nothing constrains it (45_keypad_timer_random.md rule R198,
60_exceptions.md rule R245; log 6). -/
opaque Config.randomByte (n : Nat) : Byte

end Sys2Proof
end

