-- ==== Sys2Proof/Machine/Params.lean ====
section
/-! DEFINITION. The values that State.reset names for the open parameters of an instance (log 1, 2, 11). No rule
depends on them: they are one instance, and statements over all states hold for every instance. -/

namespace Sys2Proof.Machine

/-- DESIGN CHOICE (log 2, 11). STACK_DEPTH 12 is the smaller of the two bounds the source names
(70_reset_and_hazards.md rule R273(b)); STEPS_PER_FRAME 4 is the value of a test vector; `post_decrement` follows
the order of the source's sentences (92_eei_decisions.md D15). -/
def defaultParams : Params :=
  { stackDepth := 12, stepsPerFrame := 4, audioGate := .postDecrement, renderAfterFault := true }

/-- DESIGN CHOICE (log 1): the mode of State.reset; the source names no default (70_reset_and_hazards.md rule
R275). -/
def defaultMode : Mode := .legacy

/-- The values the open parameters of an instance may take: STACK_DEPTH is at least 1, the others are free
(00_scope.md rule R6, 92_eei_decisions.md D1, D15, D16). -/
def legalParams (p : Params) : Bool := decide (1 ≤ p.stackDepth)

end Sys2Proof.Machine
end

