-- ==== Sys2Proof/Machine/State.lean ====
section
/-! DEFINITION. The state of the machine: the fourteen elements of 10_state.md rule R20, and beside them the
instance's parameters and the environment's bookkeeping, all plain data. -/

namespace Sys2Proof.Machine

/-- Memory: the bytes that differ from what an unlisted address reads as, addresses strictly rising
(`Memory.wf` in Machine/Ops.lean). -/
abbrev Memory := List Host.Cell

/-- The display: `disp[y][x]`, 32 rows of 64 pixels, true for on (10_state.md rule R28). -/
abbrev Display := Vector (Vector Bool 64) 32

/-- The FX0A wait latch (10_state.md rule R32). -/
inductive Wait where
  | idle
  | keyLatched (k : Key)
deriving DecidableEq, Repr

/-- The fault causes, each with its item of information (60_exceptions.md rule R220). -/
inductive FaultCause where
  /-- Code 1, raised by 2NNN. -/
  | stackOverflow
  /-- Code 2, raised by 00EE. -/
  | stackUnderflow
  /-- Code 3, raised by the fetch, DXYN, FX33, FX55, FX65; `addr` is the lowest out-of-range address used. -/
  | memoryBounds (addr : Nat)
  /-- Code 4, raised by EX9E and EXA1; `vx` is the value of V[X]. -/
  | keyIndex (vx : Byte)
deriving DecidableEq, Repr

/-- A recorded fault (10_state.md rule R35, 60_exceptions.md rule R220). -/
structure FaultRecord where
  cause : FaultCause
  /-- The address of the faulting instruction. -/
  addr : Word
  /-- The opcode; none for a fetch fault. -/
  opcode : Option Word
deriving DecidableEq, Repr

/-- What the input collaborator does at an input poll (60_exceptions.md rules R237, R241, R242, R243). -/
inductive InputEvent where
  | keyDown (k : Key)
  | keyUp (k : Key)
  | pause
  | resume
  /-- The explicit reset command, which may give the mode a new value. -/
  | reset (mode : Mode)
  | quit
deriving DecidableEq, Repr

/-- One event of the host interface (60_exceptions.md rule R247). -/
inductive HostEvent where
  | input (e : InputEvent)
  /-- The step strobe. -/
  | step
  /-- The tick strobe. -/
  | tick
  /-- The render handoff. -/
  | render
deriving DecidableEq, Repr

/-- The state. The first fourteen fields are the machine's (10_state.md rule R20); the others are the model's own
(INVENTORY.md, State). -/
structure State where
  /-- memory (10_state.md rule R36) -/
  mem : Memory
  /-- `V[0]` to `V[15]` (10_state.md rules R21, R22) -/
  v : Vector Byte 16
  /-- `I` (10_state.md rule R23) -/
  index : Word
  /-- programCounter (10_state.md rule R24) -/
  pc : Word
  /-- callStack, the last entry the most recently pushed (10_state.md rule R25) -/
  stack : List Word
  /-- delayTimer (10_state.md rule R26) -/
  dt : Byte
  /-- soundTimer (10_state.md rule R27) -/
  st : Byte
  /-- display (10_state.md rule R28) -/
  disp : Display
  /-- keypad, true for pressed (10_state.md rule R29) -/
  key : Vector Bool 16
  /-- redrawPending (10_state.md rule R30) -/
  redraw : Bool
  /-- extensionMode (10_state.md rule R31) -/
  mode : Mode
  /-- the FX0A wait latch (10_state.md rule R32) -/
  wait : Wait
  /-- audio level (10_state.md rule R33) -/
  tone : Bool
  /-- fault record (10_state.md rule R35) -/
  fault : Option FaultRecord
  /-- the open parameters of the instance (log 2) -/
  params : Params
  /-- the memory the loader built, loaded again by an explicit reset (60_exceptions.md rule R242; log 5) -/
  image : Memory
  /-- the Frame Driver's pause flag (60_exceptions.md rule R241) -/
  paused : Bool
  /-- the host events still to come, oldest first (60_exceptions.md rules R239, R247; log 7) -/
  pending : List HostEvent
  /-- how many random bytes have been drawn (log 6) -/
  draws : Nat
deriving DecidableEq, Repr

/-- Why a step answers no next state. -/
inductive Fault where
  /-- Raised by `step` when a fault is recorded and no host event is pending: the machine is stopped until reset
  (60_exceptions.md rules R229, R231). Safe: no state follows, so nothing false can be claimed of one. -/
  | stopped (r : FaultRecord)
deriving DecidableEq, Repr

/-- Why a step has no meaning. -/
inductive Refusal where
  /-- Raised by an arm of `exec` whose instruction has no meaning yet; no arm does. Safe: no state follows. -/
  | notModelled (mnemonic : String)
  /-- Raised by `step` at the host's quit: the run is over and the state is discarded (60_exceptions.md rule R243).
  Safe: no state follows. -/
  | quit
deriving DecidableEq, Repr

/-- What an instruction's meaning and a step answer. -/
abbrev Result := Host.Outcome State Fault Refusal

/-- The machine right after reset (10_state.md rule R38, 70_reset_and_hazards.md rule R270), with the empty ROM, the
font and fill an unlisted address reads as, and the parameters of Machine/Params.lean (log 1 to 5). -/
def State.reset : State :=
  { mem := []
    v := Vector.replicate 16 0
    index := 0
    pc := 0x200
    stack := []
    dt := 0
    st := 0
    disp := Vector.replicate 32 (Vector.replicate 64 false)
    key := Vector.replicate 16 false
    redraw := false
    mode := defaultMode
    wait := .idle
    tone := false
    fault := none
    params := defaultParams
    image := []
    paused := false
    pending := []
    draws := 0 }

end Sys2Proof.Machine
end

