-- ==== Sys2Proof/Machine/Ops.lean ====
section
/-! DEFINITION. The named operations over memory and registers, the fetch, and the taking of a fault. -/

namespace Sys2Proof.Machine

/-! ### Memory -/

/-- PRESUMED (log 3): the customary font (20_memory.md rule R62, marked there as general knowledge), 16 glyphs of 5
bytes. -/
def customaryFont : List Byte :=
  [0xF0, 0x90, 0x90, 0x90, 0xF0,  0x20, 0x60, 0x20, 0x20, 0x70,  0xF0, 0x10, 0xF0, 0x80, 0xF0,  0xF0, 0x10, 0xF0, 0x10, 0xF0]
    ++ [0x90, 0x90, 0xF0, 0x10, 0x10,  0xF0, 0x80, 0xF0, 0x10, 0xF0,  0xF0, 0x80, 0xF0, 0x90, 0xF0,  0xF0, 0x10, 0x20, 0x40, 0x40]
    ++ [0xF0, 0x90, 0xF0, 0x90, 0xF0,  0xF0, 0x90, 0xF0, 0x10, 0xF0,  0xF0, 0x90, 0xF0, 0x90, 0x90,  0xE0, 0x90, 0xE0, 0x90, 0xE0]
    ++ [0xF0, 0x80, 0x80, 0x80, 0xF0,  0xE0, 0x90, 0x90, 0x90, 0xE0,  0xF0, 0x80, 0xF0, 0x80, 0xF0,  0xF0, 0x80, 0xF0, 0x80, 0x80]

/-- DESIGN CHOICE (log 4): the MEM_FILL byte of State.reset (70_reset_and_hazards.md rule R272 leaves it open). -/
def fillByte : Byte := 0

/-- What an address that memory does not list reads as: the customary font at 0x000 to 0x04F, the fill elsewhere. A
machine with another FONT, MEM_FILL or ROM lists the bytes that differ (`loadRom`). -/
def unlistedByte (a : Nat) : Byte := customaryFont.getD a fillByte

/-- The byte at an address. -/
def Memory.read : Memory → Nat → Byte
  | [], a => unlistedByte a
  | (k, b) :: rest, a => if k = a then b else Memory.read rest a

/-- The memory with no entry for an address. -/
def Memory.forget (m : Memory) (a : Nat) : Memory := m.filter (fun c => c.1 ≠ a)

/-- The memory with an entry put before the first one at a higher address. -/
def Memory.insertCell : Memory → Nat → Byte → Memory
  | [], a, b => [(a, b)]
  | (k, x) :: rest, a, b => if a < k then (a, b) :: (k, x) :: rest else (k, x) :: Memory.insertCell rest a b

/-- The memory with one byte set; writing what an unlisted address reads as removes the entry. -/
def Memory.write (m : Memory) (a : Nat) (b : Byte) : Memory :=
  if b = unlistedByte a then m.forget a else (m.forget a).insertCell a b

/-- The canonical form: addresses strictly rising and inside the 4096 bytes, no entry equal to what an unlisted
address reads as. -/
abbrev Memory.wf (m : Memory) : Prop :=
  m.Pairwise (fun c d => c.1 < d.1) ∧ ∀ c ∈ m, c.1 < memSize ∧ c.2 ≠ unlistedByte c.1

/-- The lowest out-of-range address among `count` bytes from `base`, if one is out of range (20_memory.md rules R63,
R65; 60_exceptions.md rule R223). Addresses are natural numbers and never wrap. -/
def rangeFault (base count : Nat) : Option Nat :=
  if count = 0 ∨ base + count ≤ memSize then none else some (max base memSize)

/-- `MemRead(addr, 1)`: the byte, or the out-of-range address (20_memory.md rule R63). -/
def memRead (s : State) (a : Nat) : Except Nat Byte :=
  if a < memSize then .ok (s.mem.read a) else .error a

/-- `MemRead(addr, 2)`: the fetch's two bytes, big-endian (20_memory.md rule R64). -/
def memRead2 (s : State) (a : Nat) : Except Nat Word :=
  match memRead s a with
  | .error e => .error e
  | .ok hi =>
    match memRead s (a + 1) with
    | .error e => .error e
    | .ok lo => .ok (wordOfBytes hi lo)

/-- The instruction fetch (30_encoding.md rule R93). -/
def fetch (s : State) : Except Nat Word := memRead2 s s.pc.toNat

/-- One byte stored in memory (20_memory.md rules R63, R70, R71). -/
def storeByte (s : State) (a : Nat) (b : Byte) : State := { s with mem := s.mem.write a b }

/-! ### Registers, program counter, stack -/

/-- Read of a general register (10_state.md rule R21). -/
def getV (s : State) (x : Reg) : Byte := s.v[x.val]

/-- Write of a general register (10_state.md rule R21). -/
def setV (s : State) (x : Reg) (b : Byte) : State := { s with v := s.v.set x.val b }

/-- Write of the index register (10_state.md rule R23). -/
def setIndex (s : State) (w : Word) : State := { s with index := w }

/-- Write of the program counter (10_state.md rule R24). -/
def setPc (s : State) (w : Word) : State := { s with pc := w }

/-- The advance of `pc` past the fetched instruction, and the skip of one more (30_encoding.md rule R93). -/
def advance (s : State) : State := { s with pc := s.pc + 2 }

/-- The rewind that makes FX0A execute again (45_keypad_timer_random.md rule R193). -/
def rewind (s : State) : State := { s with pc := s.pc - 2 }

/-- `push(v)` appends (00_scope.md rule R12). -/
def push (s : State) (w : Word) : State := { s with stack := s.stack ++ [w] }

/-! ### Taking a fault

There is no vector, handler or mode change (60_exceptions.md rule R229), and no instruction returns from a fault
(rule R231): the only way out is the host's reset, `resetMachine` in Machine/Reset.lean. -/

/-- Taking a fault: nothing of the step is committed, the record is set, `pc` stays at the faulting instruction
(60_exceptions.md rules R220, R229, R230). `s` is the state before the step. -/
def raise (s : State) (cause : FaultCause) (opcode : Option Word) : State :=
  { s with fault := some { cause := cause, addr := s.pc, opcode := opcode } }

/-- The fault of an instruction `i`, its opcode recorded. -/
def raiseAt (i : Instr) (s : State) (cause : FaultCause) : State := raise s cause (some (encode i))

/-- An instruction that uses `count` bytes from `base`: it faults if one is out of range, before it changes
anything (60_exceptions.md rules R223, R230); else it runs. -/
def withRange (i : Instr) (s : State) (base count : Nat) (run : State) : Result :=
  match rangeFault base count with
  | some a => .next (raiseAt i s (.memoryBounds a))
  | none => .next run

/-- The code of a fault cause (60_exceptions.md rule R220). -/
def faultCode : FaultCause → Nat
  | .stackOverflow => 1
  | .stackUnderflow => 2
  | .memoryBounds _ => 3
  | .keyIndex _ => 4

/-- The item of information of a fault cause, where there is one (60_exceptions.md rule R220). -/
def faultInfo : FaultCause → Option Nat
  | .stackOverflow => none
  | .stackUnderflow => none
  | .memoryBounds a => some a
  | .keyIndex vx => some vx.toNat

/-! ### Placing an instruction for the next fetch -/

/-- The two bytes of a word at an address, big-endian. -/
def placeWord (m : Memory) (a : Nat) (w : Word) : Memory := (m.write a (highByte w)).write (a + 1) (lowByte w)

/-- The program counter if an instruction can be fetched there, else the program's base. -/
def fetchablePc (pc : Word) : Word := if pc.toNat + 1 < memSize then pc else 0x200#16

/-- The state whose next step fetches and runs the word `w`: the word stands at `pc`, no host event precedes the
step, the machine is not paused or faulted (log 14). -/
def withNextWord (s : State) (w : Word) : State :=
  { s with
    mem := placeWord s.mem (fetchablePc s.pc).toNat w
    pc := fetchablePc s.pc
    fault := none
    paused := false
    pending := [] }

end Sys2Proof.Machine
end

