-- ==== Sys2Proof/Machine/Operands.lean ====
section
/-! DEFINITION. The operand forms (30_encoding.md rule R98): register operands `getV`, literals, 12-bit addresses,
the mode-dependent source of the shifts, the sprite's origin and the I-based addresses. -/

namespace Sys2Proof.Machine

/-- `zext_16(NNN)` (30_encoding.md rule R98). -/
def addressOf (nnn : BitVec 12) : Word := nnn.setWidth 16

/-- `zext_16` of an 8-bit value (30_encoding.md rule R98). -/
def widen (b : Byte) : Word := b.setWidth 16

/-- The source of 8XY6 and 8XYE: `V[Y]` in legacy mode, `V[X]` in modern mode (42_alu.md rules R148, R150). -/
def shiftSource (s : State) (x y : Reg) : Byte :=
  match s.mode with
  | .legacy => getV s y
  | .modern => getV s x

/-- The effective address of the first byte of FX33, FX55, FX65 and DXYN, a natural number (20_memory.md rule R65,
43_index_memory.md rule R166). -/
def baseAddress (s : State) : Nat := s.index.toNat

/-- The index register after FX55 and FX65: past the bytes moved in legacy mode, unchanged in modern mode
(43_index_memory.md rules R164, R165). -/
def indexAfterTransfer (s : State) (count : Nat) : Word :=
  match s.mode with
  | .legacy => s.index + BitVec.ofNat 16 count
  | .modern => s.index

/-- The column of a sprite's origin (44_display.md rule R177). -/
def originX (s : State) (x : Reg) : Nat := (getV s x).toNat % displayWidth

/-- The row of a sprite's origin (44_display.md rule R177). -/
def originY (s : State) (y : Reg) : Nat := (getV s y).toNat % displayHeight

/-- The rows of a sprite that fall on the display (44_display.md rule R177). -/
def visibleRows (s : State) (y : Reg) (n : BitVec 4) : Nat := min n.toNat (displayHeight - originY s y)

end Sys2Proof.Machine
end

