-- ==== Sys2Proof/Machine/Flags.lean ====
section
/-! DEFINITION. The flag computations: VF is the only flag (10_state.md rule R22). -/

namespace Sys2Proof.Machine

/-- VF, register 15 (10_state.md rule R22). -/
def vf : Reg := 15

/-- A flag as VF holds it: exactly 0 or 1 (10_state.md rule R22). -/
def flagByte (b : Bool) : Byte := if b then 1 else 0

/-- The write of a flag to VF. -/
def setVF (s : State) (b : Bool) : State := setV s vf (flagByte b)

/-- A result written to `V[X]` and then a flag to VF: with `X = 15` the flag is what remains (00_scope.md rule R13,
92_eei_decisions.md D7). -/
def setVThenVF (s : State) (x : Reg) (b : Byte) (flag : Bool) : State := setVF (setV s x b) flag

/-- The carry of 8XY4: the unwrapped sum exceeds 255 (42_alu.md rule R146). -/
def carry (a b : Byte) : Bool := decide (255 < a.toNat + b.toNat)

/-- The no-borrow of `a − b` (42_alu.md rules R147, R149). -/
def noBorrow (a b : Byte) : Bool := decide (b.toNat ≤ a.toNat)

/-- The sum brought to 8 bits (42_alu.md rules R141, R146). -/
def wrapAdd (a b : Byte) : Byte := BitVec.ofNat 8 (a.toNat + b.toNat)

/-- `trunc8(a − b)` (00_scope.md rule R11, 42_alu.md rule R147). -/
def wrapSub (a b : Byte) : Byte := BitVec.ofInt 8 ((a.toNat : Int) - (b.toNat : Int))

/-- The bit shifted out at the low end (42_alu.md rule R148). -/
def lowBit (b : Byte) : Bool := b.getLsbD 0

/-- The bit shifted out at the high end (42_alu.md rule R150). -/
def highBit (b : Byte) : Bool := b.getLsbD 7

/-- `src >> 1`, logical (42_alu.md rule R148). -/
def shiftRightOne (b : Byte) : Byte := BitVec.ofNat 8 (b.toNat / 2)

/-- `(src << 1) mod 256` (42_alu.md rule R150). -/
def shiftLeftOne (b : Byte) : Byte := BitVec.ofNat 8 (b.toNat * 2)

/-- The side effect of 8XY1, 8XY2 and 8XY3: VF is zeroed in legacy mode, untouched in modern mode (42_alu.md rule
R143). -/
def legacyClearVF (s : State) : State :=
  match s.mode with
  | .legacy => setV s vf 0
  | .modern => s

end Sys2Proof.Machine
end

