-- ==== Sys2Proof/Machine/Alu.lean ====
section
/-! DEFINITION. Register load, arithmetic, logic and shifts (42_alu.md). Operands are sampled from the state before
the step; `V[X]` is written first and VF last (00_scope.md rule R13). -/

namespace Sys2Proof.Machine

/-- 6XNN (42_alu.md rule R140). -/
def execLdNN (x : Reg) (nn : Byte) (s : State) : Result := .next (setV (advance s) x nn)

/-- 7XNN (42_alu.md rule R141). -/
def execAddNN (x : Reg) (nn : Byte) (s : State) : Result := .next (setV (advance s) x (wrapAdd (getV s x) nn))

/-- 8XY0 (42_alu.md rule R142). -/
def execLdVY (x y : Reg) (s : State) : Result := .next (setV (advance s) x (getV s y))

/-- 8XY1 (42_alu.md rule R143). -/
def execOrVY (x y : Reg) (s : State) : Result :=
  .next (legacyClearVF (setV (advance s) x (getV s x ||| getV s y)))

/-- 8XY2 (42_alu.md rule R144). -/
def execAndVY (x y : Reg) (s : State) : Result :=
  .next (legacyClearVF (setV (advance s) x (getV s x &&& getV s y)))

/-- 8XY3 (42_alu.md rule R145). -/
def execXorVY (x y : Reg) (s : State) : Result :=
  .next (legacyClearVF (setV (advance s) x (getV s x ^^^ getV s y)))

/-- 8XY4 (42_alu.md rule R146). -/
def execAddVY (x y : Reg) (s : State) : Result :=
  .next (setVThenVF (advance s) x (wrapAdd (getV s x) (getV s y)) (carry (getV s x) (getV s y)))

/-- 8XY5 (42_alu.md rule R147). -/
def execSubVY (x y : Reg) (s : State) : Result :=
  .next (setVThenVF (advance s) x (wrapSub (getV s x) (getV s y)) (noBorrow (getV s x) (getV s y)))

/-- 8XY6 (42_alu.md rule R148). -/
def execShrVY (x y : Reg) (s : State) : Result :=
  .next (setVThenVF (advance s) x (shiftRightOne (shiftSource s x y)) (lowBit (shiftSource s x y)))

/-- 8XY7 (42_alu.md rule R149). -/
def execSubnVY (x y : Reg) (s : State) : Result :=
  .next (setVThenVF (advance s) x (wrapSub (getV s y) (getV s x)) (noBorrow (getV s y) (getV s x)))

/-- 8XYE (42_alu.md rule R150). -/
def execShlVY (x y : Reg) (s : State) : Result :=
  .next (setVThenVF (advance s) x (shiftLeftOne (shiftSource s x y)) (highBit (shiftSource s x y)))

end Sys2Proof.Machine
end

