-- ==== Sys2Proof/Machine/Display.lean ====
section
/-! DEFINITION. The display instructions and the Sprite Renderer (44_display.md). -/

namespace Sys2Proof.Machine

/-- The display all off. -/
def blankDisplay : Display := Vector.replicate 32 (Vector.replicate 64 false)

/-- The pixel in row `y` and column `x`; false outside the bitmap, which the renderer never asks for. -/
def pixel (d : Display) (y x : Nat) : Bool :=
  if h : y < 32 ∧ x < 64 then (d[y]'h.1)[x]'h.2 else false

/-- The display with the pixel in row `y` and column `x` inverted. -/
def togglePixel (d : Display) (y x : Nat) : Display :=
  if h : y < 32 ∧ x < 64 then d.set y ((d[y]'h.1).set x (!pixel d y x) h.2) h.1 else d

/-- 00E0 (44_display.md rule R176). -/
def execCls (s : State) : Result := .next { advance s with disp := blankDisplay, redraw := true }

/-- What the renderer carries from pixel to pixel: the display and the collision flag. -/
structure Blit where
  disp : Display
  collision : Bool
deriving DecidableEq, Repr

/-- One sprite bit of 1 at a pixel on the display: a collision if the pixel was on, then the XOR (44_display.md rule
R177). -/
def blitPixel (t : Blit) (y x : Nat) : Blit :=
  { disp := togglePixel t.disp y x, collision := t.collision || pixel t.disp y x }

/-- The `n` columns of a row byte from column `c` on, bit 7 first; the rest of the row is clipped once the column
reaches the display's width (44_display.md rule R177). -/
def blitColumns (b : Byte) (y x0 : Nat) : (n : Nat) → (c : Nat) → Blit → Blit
  | 0, _, t => t
  | n + 1, c, t =>
    if displayWidth ≤ x0 + c then t
    else blitColumns b y x0 n (c + 1) (if b.getLsbD (7 - c) then blitPixel t y (x0 + c) else t)

/-- The `n` rows of a sprite from row `r` on, top to bottom (44_display.md rule R177). -/
def blitRows (m : Memory) (base y0 x0 : Nat) : (n : Nat) → (r : Nat) → Blit → Blit
  | 0, _, t => t
  | n + 1, r, t => blitRows m base y0 x0 n (r + 1) (blitColumns (m.read (base + r)) (y0 + r) x0 8 0 t)

/-- The renderer's work for DXYN: the collision flag starts at 0 (44_display.md rule R177). -/
def blit (s : State) (x y : Reg) (n : BitVec 4) : Blit :=
  blitRows s.mem (baseAddress s) (originY s y) (originX s x) (visibleRows s y n) 0
    { disp := s.disp, collision := false }

/-- DXYN (44_display.md rule R177): the origin is sampled before VF is written; rows clipped off the bottom are not
read and cannot fault. -/
def execDrw (x y : Reg) (n : BitVec 4) (s : State) : Result :=
  withRange (.drw x y n) s (baseAddress s) (visibleRows s y n)
    { setVF (advance s) (blit s x y n).collision with disp := (blit s x y n).disp, redraw := true }

end Sys2Proof.Machine
end

