-- ==== Sys2Proof/Machine/Flow.lean ====
section
/-! DEFINITION. Control transfer: 00EE, 1NNN, 2NNN, BNNN (40_flow.md). A meaning is given the state before the
step, with `pc` at the instruction; `advance` is the fetch's `pc <- a + 2`. -/

namespace Sys2Proof.Machine

/-- 00EE (40_flow.md rule R120). -/
def execRet (s : State) : Result :=
  match s.stack.getLast? with
  | none => .next (raiseAt .ret s .stackUnderflow)
  | some top => .next { s with pc := top, stack := s.stack.dropLast }

/-- 1NNN (40_flow.md rule R121). -/
def execJp (nnn : BitVec 12) (s : State) : Result := .next (setPc (advance s) (addressOf nnn))

/-- 2NNN (40_flow.md rule R122): the pushed value is the already advanced `pc`. The stack is full at STACK_DEPTH
entries or, in a state no run reaches, more (log 17). -/
def execCall (nnn : BitVec 12) (s : State) : Result :=
  if s.params.stackDepth ≤ s.stack.length then .next (raiseAt (.call nnn) s .stackOverflow)
  else .next (setPc (push (advance s) (advance s).pc) (addressOf nnn))

/-- BNNN (40_flow.md rule R123): the register is always V0. -/
def execJpV0 (nnn : BitVec 12) (s : State) : Result :=
  .next (setPc (advance s) (addressOf nnn + widen (getV s 0)))

end Sys2Proof.Machine
end

