-- ==== Sys2Proof/Machine/IndexMemory.lean ====
section
/-! DEFINITION. The index register and the transfers between registers and memory (43_index_memory.md). -/

namespace Sys2Proof.Machine

/-- ANNN (43_index_memory.md rule R160). -/
def execLdI (nnn : BitVec 12) (s : State) : Result := .next (setIndex (advance s) (addressOf nnn))

/-- FX1E (43_index_memory.md rule R161). -/
def execAddIVX (x : Reg) (s : State) : Result := .next (setIndex (advance s) (s.index + widen (getV s x)))

/-- FX29 (43_index_memory.md rule R162): the whole byte is multiplied. -/
def execLdFVX (x : Reg) (s : State) : Result :=
  .next (setIndex (advance s) (BitVec.ofNat 16 ((getV s x).toNat * 5)))

/-- The hundreds digit (43_index_memory.md rule R163). -/
def hundreds (b : Byte) : Byte := BitVec.ofNat 8 (b.toNat / 100)

/-- The tens digit (43_index_memory.md rule R163). -/
def tens (b : Byte) : Byte := BitVec.ofNat 8 (b.toNat / 10 % 10)

/-- The ones digit (43_index_memory.md rule R163). -/
def ones (b : Byte) : Byte := BitVec.ofNat 8 (b.toNat % 10)

/-- The three stores of FX33, in order (43_index_memory.md rule R163). -/
def storeDigits (s : State) (a : Nat) (b : Byte) : State :=
  storeByte (storeByte (storeByte s a (hundreds b)) (a + 1) (tens b)) (a + 2) (ones b)

/-- FX33 (43_index_memory.md rule R163). -/
def execLdBVX (x : Reg) (s : State) : Result :=
  withRange (.ldBVX x) s (baseAddress s) 3 (storeDigits (advance s) (baseAddress s) (getV s x))

/-- The memory after `V[0]` to `V[n − 1]` are stored from `base` on, in ascending order (43_index_memory.md rule
R164). -/
def storeRegs (v : Vector Byte 16) (base : Nat) : (n : Nat) → n ≤ 16 → Memory → Memory
  | 0, _, m => m
  | n + 1, h, m => (storeRegs v base n (by omega) m).write (base + n) v[n]

/-- The registers after `V[0]` to `V[n − 1]` are loaded from `base` on, in ascending order (43_index_memory.md rule
R165). -/
def loadRegs (m : Memory) (base : Nat) : (n : Nat) → n ≤ 16 → Vector Byte 16 → Vector Byte 16
  | 0, _, v => v
  | n + 1, h, v => (loadRegs m base n (by omega) v).set n (m.read (base + n))

/-- FX55 (43_index_memory.md rule R164). -/
def execStoreVX (x : Reg) (s : State) : Result :=
  withRange (.storeVX x) s (baseAddress s) (x.val + 1)
    { advance s with
      mem := storeRegs s.v (baseAddress s) (x.val + 1) x.isLt s.mem
      index := indexAfterTransfer s (x.val + 1) }

/-- FX65 (43_index_memory.md rule R165). -/
def execLoadVX (x : Reg) (s : State) : Result :=
  withRange (.loadVX x) s (baseAddress s) (x.val + 1)
    { advance s with
      v := loadRegs s.mem (baseAddress s) (x.val + 1) x.isLt s.v
      index := indexAfterTransfer s (x.val + 1) }

end Sys2Proof.Machine
end

