-- ==== Sys2Proof/Machine/Skip.lean ====
section
/-! DEFINITION. The skips that compare registers: 3XNN, 4XNN, 5XY0, 9XY0 (41_skip.md). -/

namespace Sys2Proof.Machine

/-- The advance past this instruction, and past one more if the condition holds (41_skip.md). -/
def skipIf (s : State) (cond : Bool) : State := if cond then advance (advance s) else advance s

/-- 3XNN (41_skip.md rule R130). -/
def execSeNN (x : Reg) (nn : Byte) (s : State) : Result := .next (skipIf s (getV s x == nn))

/-- 4XNN (41_skip.md rule R131). -/
def execSneNN (x : Reg) (nn : Byte) (s : State) : Result := .next (skipIf s (getV s x != nn))

/-- 5XY0 (41_skip.md rule R132). -/
def execSeVY (x y : Reg) (s : State) : Result := .next (skipIf s (getV s x == getV s y))

/-- 9XY0 (41_skip.md rule R133). -/
def execSneVY (x y : Reg) (s : State) : Result := .next (skipIf s (getV s x != getV s y))

end Sys2Proof.Machine
end

