-- ==== Sys2Proof/Machine/KeyTimerRandom.lean ====
section
/-! DEFINITION. The keypad, timer and random instructions (45_keypad_timer_random.md). -/

namespace Sys2Proof.Machine

/-- A keypad skip: the fault KeyIndex when the register is above 15, else a skip if the key's level is `level`
(45_keypad_timer_random.md rules R190, R191; 60_exceptions.md rule R224). -/
def skipOnKey (i : Instr) (s : State) (vx : Byte) (level : Bool) : Result :=
  if h : vx.toNat < 16 then .next (skipIf s (s.key[vx.toNat] == level)) else .next (raiseAt i s (.keyIndex vx))

/-- EX9E (45_keypad_timer_random.md rule R190). -/
def execSkp (x : Reg) (s : State) : Result := skipOnKey (.skp x) s (getV s x) true

/-- EXA1 (45_keypad_timer_random.md rule R191). -/
def execSknp (x : Reg) (s : State) : Result := skipOnKey (.sknp x) s (getV s x) false

/-- FX07 (45_keypad_timer_random.md rule R192). -/
def execLdVXDT (x : Reg) (s : State) : Result := .next (setV (advance s) x s.dt)

/-- FX15 (45_keypad_timer_random.md rule R195). -/
def execLdDTVX (x : Reg) (s : State) : Result := .next { advance s with dt := getV s x }

/-- FX18 (45_keypad_timer_random.md rule R196): `tone` follows only at the next tick. -/
def execLdSTVX (x : Reg) (s : State) : Result := .next { advance s with st := getV s x }

/-- The keys in the order of FX0A's scan (45_keypad_timer_random.md rule R193). -/
def scanOrder : List Key := [0, 1, 2, 3, 4, 5, 6, 7, 8, 9, 10, 11, 12, 13, 14, 15]

/-- The first pressed key of the scan, the one with the least index (45_keypad_timer_random.md rule R193(a)). -/
def firstPressed (key : Vector Bool 16) : Option Key := scanOrder.find? (fun k => key[k.val])

/-- FX0A (45_keypad_timer_random.md rule R193): every waiting step rewinds the advanced `pc`. -/
def execLdVXK (x : Reg) (s : State) : Result :=
  match s.wait with
  | .idle =>
    match firstPressed s.key with
    | none => .next (rewind (advance s))
    | some k => .next { rewind (advance s) with wait := .keyLatched k }
  | .keyLatched k =>
    if s.key[k.val] then .next (rewind (advance s))
    else .next { setV (advance s) x (BitVec.ofNat 8 k.val) with wait := .idle }

/-- CXNN (45_keypad_timer_random.md rule R198): the drawn byte is a free value (log 6). -/
def execRnd (x : Reg) (nn : Byte) (s : State) : Result :=
  .next { setV (advance s) x (Config.randomByte s.draws &&& nn) with draws := s.draws + 1 }

end Sys2Proof.Machine
end

