-- ==== Sys2Proof/Machine/Nop.lean ====
section
/-! DEFINITION. The no-op (46_unrecognized.md). -/

namespace Sys2Proof.Machine

/-- Any unrecognized word (46_unrecognized.md rule R206): its only effect is the advance of `pc`. The word plays no
part. -/
def execNop (_w : Word) (s : State) : Result := .next (advance s)

end Sys2Proof.Machine
end

