-- ==== Sys2Proof/Machine/Dispatch.lean ====
section
/-! DEFINITION. The dispatch: one arm per constructor of Instr, each one call of the instruction's meaning. -/

namespace Sys2Proof.Machine

/-- The execution of one decoded instruction; `s` is the state before the step, `pc` at the instruction. -/
def exec (i : Instr) (s : State) : Host.Outcome State Fault Refusal :=
  match i with
  | .cls => Sys2Proof.Machine.execCls s
  | .ret => Sys2Proof.Machine.execRet s
  | .jp nnn => Sys2Proof.Machine.execJp nnn s
  | .call nnn => Sys2Proof.Machine.execCall nnn s
  | .seNN x nn => Sys2Proof.Machine.execSeNN x nn s
  | .sneNN x nn => Sys2Proof.Machine.execSneNN x nn s
  | .seVY x y => Sys2Proof.Machine.execSeVY x y s
  | .ldNN x nn => Sys2Proof.Machine.execLdNN x nn s
  | .addNN x nn => Sys2Proof.Machine.execAddNN x nn s
  | .ldVY x y => Sys2Proof.Machine.execLdVY x y s
  | .orVY x y => Sys2Proof.Machine.execOrVY x y s
  | .andVY x y => Sys2Proof.Machine.execAndVY x y s
  | .xorVY x y => Sys2Proof.Machine.execXorVY x y s
  | .addVY x y => Sys2Proof.Machine.execAddVY x y s
  | .subVY x y => Sys2Proof.Machine.execSubVY x y s
  | .shrVY x y => Sys2Proof.Machine.execShrVY x y s
  | .subnVY x y => Sys2Proof.Machine.execSubnVY x y s
  | .shlVY x y => Sys2Proof.Machine.execShlVY x y s
  | .sneVY x y => Sys2Proof.Machine.execSneVY x y s
  | .ldI nnn => Sys2Proof.Machine.execLdI nnn s
  | .jpV0 nnn => Sys2Proof.Machine.execJpV0 nnn s
  | .rnd x nn => Sys2Proof.Machine.execRnd x nn s
  | .drw x y n => Sys2Proof.Machine.execDrw x y n s
  | .skp x => Sys2Proof.Machine.execSkp x s
  | .sknp x => Sys2Proof.Machine.execSknp x s
  | .ldVXDT x => Sys2Proof.Machine.execLdVXDT x s
  | .ldVXK x => Sys2Proof.Machine.execLdVXK x s
  | .ldDTVX x => Sys2Proof.Machine.execLdDTVX x s
  | .ldSTVX x => Sys2Proof.Machine.execLdSTVX x s
  | .addIVX x => Sys2Proof.Machine.execAddIVX x s
  | .ldFVX x => Sys2Proof.Machine.execLdFVX x s
  | .ldBVX x => Sys2Proof.Machine.execLdBVX x s
  | .storeVX x => Sys2Proof.Machine.execStoreVX x s
  | .loadVX x => Sys2Proof.Machine.execLoadVX x s
  | .nop w => Sys2Proof.Machine.execNop w s

end Sys2Proof.Machine
end

