-- ==== Sys2Proof/Machine/Engine.lean ====
section
/-! DEFINITION. The Execution Engine's step (30_encoding.md rule R93). -/

namespace Sys2Proof.Machine

/-- No fault is recorded and the host has not paused the machine: only then do a step and a tick take place
(60_exceptions.md rules R229, R241). -/
def running (s : State) : Bool := s.fault.isNone && !s.paused

/-- One step: fetch, decode, execute. A fetch outside memory is the fault MemoryBounds with no opcode recorded
(20_memory.md rule R64, 60_exceptions.md rule R220). -/
def engineStep (s : State) : Result :=
  match fetch s with
  | .error a => .next (raise s (.memoryBounds a) none)
  | .ok w => exec (decodeWord w) s

end Sys2Proof.Machine
end

