-- ==== Sys2Proof/Machine/Reset.lean ====
section
/-! DEFINITION. The loader and the reset (70_reset_and_hazards.md rules R270 to R275, 60_exceptions.md rule R242). -/

namespace Sys2Proof.Machine

/-- The byte reset puts at an address: the ROM from 0x200 on, the font at 0x000 to 0x04F, MEM_FILL elsewhere
(70_reset_and_hazards.md rule R270). -/
def imageByte (rom : List Byte) (font : Vector Byte 80) (fill : Nat → Byte) (a : Nat) : Byte :=
  if programBase ≤ a ∧ a < programBase + rom.length then rom.getD (a - programBase) 0
  else if h : a < 80 then font[a]
  else fill a

/-- The canonical memory that holds `f a` at each of the `n` addresses from `a` on. -/
def cellsFrom (f : Nat → Byte) : (n : Nat) → (a : Nat) → Memory
  | 0, _ => []
  | n + 1, a => if f a = unlistedByte a then cellsFrom f n (a + 1) else (a, f a) :: cellsFrom f n (a + 1)

/-- The memory the loader builds from ROM, FONT and MEM_FILL. -/
def loadImage (rom : List Byte) (font : Vector Byte 80) (fill : Nat → Byte) : Memory :=
  cellsFrom (imageByte rom font fill) memSize 0

/-- Load and power-on reset of an instance (70_reset_and_hazards.md rules R270, R271): none for an oversized ROM,
which never reaches the machine (60_exceptions.md rule R226), and none for parameters that no instance has
(00_scope.md rule R6; log 2). -/
def loadRom (rom : List Byte) (font : Vector Byte 80) (fill : Nat → Byte) (mode : Mode) (params : Params) :
    Option State :=
  if rom.length ≤ maxRom ∧ legalParams params = true then
    some { State.reset with
      mem := loadImage rom font fill
      image := loadImage rom font fill
      mode := mode
      params := params }
  else none

/-- The explicit reset command (60_exceptions.md rule R242): every element takes its reset value, the memory from the
same image. What is not the machine's (the instance's parameters, the host's pause flag and event queue, the count of
draws) stays (log 12). -/
def resetMachine (mode : Mode) (s : State) : State :=
  { State.reset with
    mem := s.image
    mode := mode
    params := s.params
    image := s.image
    paused := s.paused
    pending := s.pending
    draws := s.draws }

end Sys2Proof.Machine
end

