-- ==== Sys2Proof/Machine/TimerAudio.lean ====
section
/-! DEFINITION. The Timer/Audio-Gate Controller (60_exceptions.md rules R234 to R236). -/

namespace Sys2Proof.Machine

/-- One decrement, floor at 0 (60_exceptions.md rule R234). -/
def countDown (t : Byte) : Byte := if t = 0 then 0 else t - 1

/-- The audio gate (60_exceptions.md rule R235). -/
def gate (sample : AudioGateSample) (before after : Byte) : Bool :=
  match sample with
  | .postDecrement => decide (0 < after.toNat)
  | .preDecrement => decide (0 < before.toNat)

/-- One tick (60_exceptions.md rule R234). -/
def tick (s : State) : State :=
  { s with
    dt := countDown s.dt
    st := countDown s.st
    tone := gate s.params.audioGate s.st (countDown s.st) }

end Sys2Proof.Machine
end

