-- ==== Sys2Proof/Machine/Environment.lean ====
section
/-! DEFINITION. The host interface (60_exceptions.md rules R237, R241 to R244, R247): what each host event does. -/

namespace Sys2Proof.Machine

/-- One event of an input poll. A key event for a key already in that state changes nothing (60_exceptions.md rule
R237); the pause flag is the Frame Driver's (rule R241). -/
def performInput (e : InputEvent) (s : State) : Result :=
  match e with
  | .keyDown k => .next { s with key := s.key.set k.val true }
  | .keyUp k => .next { s with key := s.key.set k.val false }
  | .pause => .next { s with paused := true }
  | .resume => .next { s with paused := false }
  | .reset mode => .next (resetMachine mode s)
  | .quit => .refused .quit

/-- Whether the host hands the display over: never in a paused frame (60_exceptions.md rule R241), only when redraw
is pending (rule R244), and after a fault as the instance's host does (rule R238). -/
def handsOver (s : State) : Bool :=
  !s.paused && s.redraw && (s.fault.isNone || s.params.renderAfterFault)

/-- The render handoff: the display is read, the flag cleared (60_exceptions.md rule R244). -/
def render (s : State) : State := if handsOver s then { s with redraw := false } else s

/-- One host event. A step or tick strobe has no effect while the machine is faulted or paused (60_exceptions.md
rules R229, R241; log 9). -/
def perform (e : HostEvent) (s : State) : Result :=
  match e with
  | .input i => performInput i s
  | .step => if running s then engineStep s else .next s
  | .tick => if running s then .next (tick s) else .next s
  | .render => .next (render s)

/-- What the machine does when no host event is pending: an engine step; nothing while paused (log 10); a faulted
machine is stopped (60_exceptions.md rule R229). -/
def freeRun (s : State) : Result :=
  match s.fault with
  | some r => .fault (.stopped r)
  | none => if s.paused then .next s else engineStep s

end Sys2Proof.Machine
end

