-- ==== Sys2Proof/Machine/Step.lean ====
section
/-! DEFINITION. One step of the whole: the oldest pending host event, or, when none is pending, an engine step. Plain
data in State says which agent moves next (00_scope.md rule R8, 60_exceptions.md rule R239; log 7). -/

namespace Sys2Proof.Machine

/-- One step. -/
def step (s : State) : Host.Outcome State Fault Refusal :=
  match s.pending with
  | [] => freeRun s
  | e :: rest => perform e { s with pending := rest }

/-- The state whose next step runs the instruction of a table row's word (log 14). -/
def State.withFetchWord (s : State) (nbits w : Nat) : State := withNextWord s (tableWord nbits w)

end Sys2Proof.Machine
end

