-- ==== Sys2Proof/Machine/Driver.lean ====
section
/-! DEFINITION. The Frame Driver's schedule (60_exceptions.md rule R238): as the host events of one frame, and as one
frame run directly. -/

namespace Sys2Proof.Machine

/-- The host events of one frame, in the order of 60_exceptions.md rule R238. A paused or faulted machine lets the
strobes pass without effect, which is the frame's early end (rules R229, R241). -/
def frameEvents (params : Params) (poll : List InputEvent) : List HostEvent :=
  poll.map .input ++ List.replicate params.stepsPerFrame .step ++ [.tick, .render]

/-- The input poll that opens a frame; none at the host's quit. -/
def pollAll : List InputEvent → State → Option State
  | [], s => some s
  | e :: es, s =>
    match performInput e s with
    | .next t => pollAll es t
    | _ => none

/-- Up to `n` engine steps, stopping when a fault is recorded (60_exceptions.md rule R238, item 3). -/
def stepsUpTo : (n : Nat) → State → Option State
  | 0, s => some s
  | n + 1, s =>
    match s.fault with
    | some _ => some s
    | none =>
      match engineStep s with
      | .next t => stepsUpTo n t
      | _ => none

/-- Items 4 and 5 of a frame: the tick unless a fault is recorded, then the handoff (60_exceptions.md rule R238). -/
def endFrame (s : State) : State :=
  match s.fault with
  | none => render (tick s)
  | some _ => render s

/-- One frame run directly (60_exceptions.md rule R238); none at the host's quit. -/
def frame (poll : List InputEvent) (s : State) : Option State :=
  match pollAll poll s with
  | none => none
  | some t => if t.paused then some t else (stepsUpTo t.params.stepsPerFrame t).map endFrame

end Sys2Proof.Machine
end

