-- ==== Sys2Proof/Safety.lean ====
section
/-! DEFINITION. The terms that claims are stated in: the invariant of the machine, what counts as a settled run, the
opcode map as the spec's table has it, which element an instruction may write. -/

namespace Sys2Proof.Machine

/-! ### Invariant and settled runs -/

/-- The invariants of 10_state.md rule R40(a), (b), (c), the canonical form of memory, the bound that 10_state.md rule
R24 gives `pc`, and the legal values of the open parameters (00_scope.md rule R6). -/
structure Inv (s : State) : Prop where
  memWf : s.mem.wf
  imageWf : s.image.wf
  paramsLegal : legalParams s.params = true
  depth : s.stack.length ≤ s.params.stackDepth
  entries : ∀ e ∈ s.stack, e.toNat ≤ 0x1000
  pcBound : s.pc.toNat ≤ 0x10FE
  latched : ∀ k, s.wait = .keyLatched k → ∃ w x, fetch s = .ok w ∧ decodeWord w = .ldVXK x

/-- A run without a fault so far (70_reset_and_hazards.md rule R282: a fault is an abnormal end). -/
def Safe (s : State) : Prop := s.fault = none

/-- A program has settled: `pc` holds the address of a jump to itself and FX0A does not wait
(70_reset_and_hazards.md rule R282). -/
def Settled (s : State) : Prop :=
  s.wait = .idle ∧ ∃ w nnn, fetch s = .ok w ∧ decodeWord w = .jp nnn ∧ addressOf nnn = s.pc

/-! ### Outcomes -/

/-- The outcome with its next state, where it has one, changed. -/
def mapNext (f : State → State) : Result → Result
  | .next t => .next (f t)
  | .fault r => .fault r
  | .refused r => .refused r

/-- Instructions executed one after the other, each with `exec`. -/
def execAll : List Instr → State → Result
  | [], s => .next s
  | i :: is, s =>
    match exec i s with
    | .next t => execAll is t
    | .fault r => .fault r
    | .refused r => .refused r

/-- `n` ticks. -/
def ticks : (n : Nat) → State → State
  | 0, s => s
  | n + 1, s => ticks n (tick s)

/-! ### The opcode map as a table -/

/-- (mask, match) of the 34 rows of the opcode map, in the table's order (30_encoding.md rule R95). -/
def opcodeMap : List (Word × Word) :=
  [(0xFFFF, 0x00E0), (0xFFFF, 0x00EE), (0xF000, 0x1000), (0xF000, 0x2000), (0xF000, 0x3000), (0xF000, 0x4000),
    (0xF00F, 0x5000), (0xF000, 0x6000), (0xF000, 0x7000)]
  ++ [(0xF00F, 0x8000), (0xF00F, 0x8001), (0xF00F, 0x8002), (0xF00F, 0x8003), (0xF00F, 0x8004), (0xF00F, 0x8005),
    (0xF00F, 0x8006), (0xF00F, 0x8007), (0xF00F, 0x800E), (0xF00F, 0x9000)]
  ++ [(0xF000, 0xA000), (0xF000, 0xB000), (0xF000, 0xC000), (0xF000, 0xD000), (0xF0FF, 0xE09E), (0xF0FF, 0xE0A1)]
  ++ [(0xF0FF, 0xF007), (0xF0FF, 0xF00A), (0xF0FF, 0xF015), (0xF0FF, 0xF018), (0xF0FF, 0xF01E), (0xF0FF, 0xF029),
    (0xF0FF, 0xF033), (0xF0FF, 0xF055), (0xF0FF, 0xF065)]

/-- The row of the opcode map that an instruction belongs to; none for the no-op. -/
def rowOf : Instr → Option Nat
  | .cls => some 0
  | .ret => some 1
  | .jp _ => some 2
  | .call _ => some 3
  | .seNN _ _ => some 4
  | .sneNN _ _ => some 5
  | .seVY _ _ => some 6
  | .ldNN _ _ => some 7
  | .addNN _ _ => some 8
  | .ldVY _ _ => some 9
  | .orVY _ _ => some 10
  | .andVY _ _ => some 11
  | .xorVY _ _ => some 12
  | .addVY _ _ => some 13
  | .subVY _ _ => some 14
  | .shrVY _ _ => some 15
  | .subnVY _ _ => some 16
  | .shlVY _ _ => some 17
  | .sneVY _ _ => some 18
  | .ldI _ => some 19
  | .jpV0 _ => some 20
  | .rnd _ _ => some 21
  | .drw _ _ _ => some 22
  | .skp _ => some 23
  | .sknp _ => some 24
  | .ldVXDT _ => some 25
  | .ldVXK _ => some 26
  | .ldDTVX _ => some 27
  | .ldSTVX _ => some 28
  | .addIVX _ => some 29
  | .ldFVX _ => some 30
  | .ldBVX _ => some 31
  | .storeVX _ => some 32
  | .loadVX _ => some 33
  | .nop _ => none

/-! ### Which element an instruction may write -/

/-- The seven instructions that consult the mode (00_scope.md rule R2). -/
def modeDependent : Instr → Bool
  | .orVY _ _ | .andVY _ _ | .xorVY _ _ | .shrVY _ _ | .shlVY _ _ | .storeVX _ | .loadVX _ => true
  | _ => false

/-- The instructions that write VF without naming it, by mode (10_state.md rule R22). -/
def writesVF (mode : Mode) : Instr → Bool
  | .orVY _ _ | .andVY _ _ | .xorVY _ _ => mode == .legacy
  | .addVY _ _ | .subVY _ _ | .shrVY _ _ | .subnVY _ _ | .shlVY _ _ | .drw _ _ _ => true
  | _ => false

/-- The registers an instruction names as a destination (10_state.md rules R21, R37). -/
def namesDestination : Instr → Reg → Bool
  | .ldNN x _, r | .addNN x _, r | .rnd x _, r => r == x
  | .ldVY x _, r | .orVY x _, r | .andVY x _, r | .xorVY x _, r => r == x
  | .addVY x _, r | .subVY x _, r | .shrVY x _, r | .subnVY x _, r | .shlVY x _, r => r == x
  | .ldVXDT x, r | .ldVXK x, r => r == x
  | .loadVX x, r => decide (r.val ≤ x.val)
  | _, _ => false

/-! ### Sprites -/

/-- Whether the sprite bit that falls on the pixel in row `y` and column `x` is 1: the pixel lies in the window of
`rows` rows and 8 columns at the origin (44_display.md rule R177). -/
def spriteBit (m : Memory) (base y0 x0 rows y x : Nat) : Bool :=
  decide (y0 ≤ y ∧ y < y0 + rows ∧ x0 ≤ x ∧ x < x0 + 8) && (m.read (base + (y - y0))).getLsbD (7 - (x - x0))

end Sys2Proof.Machine
end

