-- ==== Sys2Proof/Certificates/Slice0/Obligations.lean ====
section
/-! DEFINITION. The statements for the provers. Each docstring names the rule of the spec it formalises. A next state
written `{ s with … }` says both what an instruction does and that nothing else changes: registers, I, stack, timers,
every byte of memory, the display and every other element. -/

open Sys2Proof Sys2Proof.Machine

/-! ### Encoding -/

/-- Words written out from the patterns of the opcode map decode to the instructions they stand for, and words that
miss a literal digit of a pattern are no-ops (30_encoding.md rules R95, R96, the latter the spec's decision D6; words of
95_test_vectors.md). -/
def Obligations.SampleWordsDecode : Prop :=
  decodeWord 0x00E0#16 = .cls ∧ decodeWord 0x00EE#16 = .ret ∧ decodeWord 0x1234#16 = .jp 0x234#12
    ∧ decodeWord 0x332A#16 = .seNN 3 0x2A#8 ∧ decodeWord 0x8124#16 = .addVY 1 2 ∧ decodeWord 0x812E#16 = .shlVY 1 2
    ∧ decodeWord 0xA2F0#16 = .ldI 0x2F0#12 ∧ decodeWord 0xC30F#16 = .rnd 3 0x0F#8
    ∧ decodeWord 0xD015#16 = .drw 0 1 5#4 ∧ decodeWord 0xE59E#16 = .skp 5 ∧ decodeWord 0xF20A#16 = .ldVXK 2
    ∧ decodeWord 0xF255#16 = .storeVX 2 ∧ decodeWord 0x01E0#16 = .nop 0x01E0#16
    ∧ decodeWord 0x5121#16 = .nop 0x5121#16 ∧ decodeWord 0x8128#16 = .nop 0x8128#16
    ∧ decodeWord 0xF3FF#16 = .nop 0xF3FF#16

/-- Decoding an encoded well-formed instruction gives it back, every operand at every value (30_encoding.md rules
R91, R92, R95; which words are no-ops in families 0, 5 and 9 is the spec's decision D6). -/
def Obligations.DecodeUndoesEncode : Prop := ∀ i : Instr, i.wf = true → decodeWord (encode i) = i

/-- Every word is the word of the instruction it decodes to, and that instruction is well formed (30_encoding.md
rules R91, R92; which words are no-ops in families 0, 5 and 9 is the spec's decision D6). -/
def Obligations.EncodeUndoesDecode : Prop :=
  ∀ w : Word, encode (decodeWord w) = w ∧ (decodeWord w).wf = true

/-- A word selects the row of the opcode map that its instruction belongs to and no other; a word that selects no row
decodes to the no-op (30_encoding.md rules R95, R97, R101; R101 is the spec's own inference from the map,
the exact match of every literal digit its decision D6). -/
def Obligations.EveryWordSelectsOneRow : Prop :=
  ∀ w : Word,
    (∀ k, k < 34 → ((w &&& (opcodeMap.getD k (0, 0)).1 = (opcodeMap.getD k (0, 0)).2) ↔ rowOf (decodeWord w) = some k))
      ∧ ((∀ k, k < 34 → w &&& (opcodeMap.getD k (0, 0)).1 ≠ (opcodeMap.getD k (0, 0)).2) → decodeWord w = .nop w)

/-- The classes of 46_unrecognized.md rule R207 are exactly the words that decode to a no-op (their membership in
families 0, 5 and 9 is the spec's decision D6). -/
def Obligations.UnrecognizedWordsAreNoOps : Prop :=
  ∀ w : Word, unrecognized w = true ↔ decodeWord w = .nop w

/-! ### The step -/

/-- The bytes at `pc` decode to a well-formed instruction and the machine runs: the step is exec of it (30_encoding.md
rule R93). The step adds only that a pending step strobe is taken from the host's queue. -/
def Obligations.StepRunsTheDecodedInstruction : Prop :=
  ∀ (s : State) (i : Instr), i.wf = true → s.pc.toNat + 1 < 0x1000 →
    decodeBytes [s.mem.read s.pc.toNat, s.mem.read (s.pc.toNat + 1)] = .ok (i, []) →
    s.fault = none → s.paused = false →
      (s.pending = [] → step s = exec i s)
        ∧ ∀ rest, s.pending = .step :: rest → step s = exec i { s with pending := rest }

/-- 20_memory.md rule R64: the fetch combines the two bytes big-endian; from 0xFFF on it raises MemoryBounds, with the
lowest out-of-range address and no opcode (that it faults there is the spec's decision D3). -/
def Obligations.FetchIsBigEndianOrFaults : Prop :=
  ∀ s : State,
    (s.pc.toNat + 1 < 0x1000 → ∃ w, fetch s = .ok w
        ∧ w.toNat = (s.mem.read s.pc.toNat).toNat * 256 + (s.mem.read (s.pc.toNat + 1)).toNat)
      ∧ (0x0FFF ≤ s.pc.toNat → s.fault = none → s.paused = false → s.pending = [] →
          step s = .next { s with
            fault := some { cause := .memoryBounds (max s.pc.toNat 0x1000), addr := s.pc, opcode := none } })

/-- The state prepared for a table row's word runs that word's instruction in its very next step, from any state
(30_encoding.md rules R90, R93). -/
def Obligations.PreparedWordRunsNext : Prop :=
  ∀ (s : State) (w : Nat),
    decodeTableWord 16 w = some (decodeWord (BitVec.ofNat 16 w))
      ∧ step (s.withFetchWord 16 w) = exec (decodeWord (BitVec.ofNat 16 w)) (s.withFetchWord 16 w)

/-- 46_unrecognized.md rule R206: a word that matches no row of the opcode map only advances `pc` by 2. -/
def Obligations.UnrecognizedWordOnlyAdvances : Prop :=
  (∀ (w : Word) (s : State), exec (.nop w) s = .next { s with pc := s.pc + 2 })
    ∧ ∀ (s : State) (w : Word), fetch s = .ok w →
        (∀ k, k < 34 → w &&& (opcodeMap.getD k (0, 0)).1 ≠ (opcodeMap.getD k (0, 0)).2) →
          engineStep s = .next { s with pc := s.pc + 2 }

/-! ### Control transfer -/

/-- 40_flow.md rules R121 and R123: JP and JP V0 set `pc` and nothing else. -/
def Obligations.JumpsSetOnlyPc : Prop :=
  ∀ (nnn : BitVec 12) (s : State),
    (∃ t, exec (.jp nnn) s = .next t ∧ t = { s with pc := t.pc } ∧ t.pc.toNat = nnn.toNat)
      ∧ (∃ t, exec (.jpV0 nnn) s = .next t ∧ t = { s with pc := t.pc }
          ∧ t.pc.toNat = nnn.toNat + (getV s 0).toNat)

/-- 40_flow.md rule R122: CALL pushes the address after it and jumps; with a full stack it faults and commits nothing
(the fault's effect is the spec's decision D2, D5). -/
def Obligations.CallPushesOrOverflows : Prop :=
  ∀ (nnn : BitVec 12) (s : State),
    (s.stack.length < s.params.stackDepth →
        ∃ t, exec (.call nnn) s = .next t ∧ t = { s with pc := t.pc, stack := s.stack ++ [s.pc + 2] }
          ∧ t.pc.toNat = nnn.toNat)
      ∧ (s.stack.length = s.params.stackDepth →
          exec (.call nnn) s = .next { s with
            fault := some { cause := .stackOverflow, addr := s.pc, opcode := some (encode (.call nnn)) } })

/-- 40_flow.md rule R120: RET pops the last pushed entry into `pc`; with an empty stack it faults and commits nothing
(the fault's effect is the spec's decision D2, D5). -/
def Obligations.ReturnPopsOrUnderflows : Prop :=
  ∀ s : State,
    (∀ below top, s.stack = below ++ [top] → exec .ret s = .next { s with pc := top, stack := below })
      ∧ (s.stack = [] → exec .ret s = .next { s with
          fault := some { cause := .stackUnderflow, addr := s.pc, opcode := some 0x00EE#16 } })

/-- N nested calls followed by N returns restore `pc` to the address after the first call and the stack to its
original content (40_flow.md rule R122). -/
def Obligations.NestedCallsReturn : Prop :=
  ∀ (targets : List (BitVec 12)) (s : State), targets ≠ [] →
    s.stack.length + targets.length ≤ s.params.stackDepth →
      execAll (targets.map Instr.call ++ List.replicate targets.length .ret) s = .next { s with pc := s.pc + 2 }

/-! ### Skips -/

/-- 41_skip.md rules R130 to R133: a skip adds 4 to `pc` if its condition holds, else 2, and changes nothing else. -/
def Obligations.SkipsCompareRegisters : Prop :=
  ∀ (x y : Reg) (nn : Byte) (s : State),
    exec (.seNN x nn) s = .next { s with pc := if getV s x = nn then s.pc + 4 else s.pc + 2 }
      ∧ exec (.sneNN x nn) s = .next { s with pc := if getV s x ≠ nn then s.pc + 4 else s.pc + 2 }
      ∧ exec (.seVY x y) s = .next { s with pc := if getV s x = getV s y then s.pc + 4 else s.pc + 2 }
      ∧ exec (.sneVY x y) s = .next { s with pc := if getV s x ≠ getV s y then s.pc + 4 else s.pc + 2 }

/-- 45_keypad_timer_random.md rules R190 and R191: the keypad skips test the level of the key that V[X] names; above
15 they raise KeyIndex and commit nothing (the spec's decision D4). -/
def Obligations.KeySkipsTestTheLevel : Prop :=
  ∀ (x : Reg) (s : State),
    (∀ h : (getV s x).toNat < 16,
        exec (.skp x) s = .next { s with pc := if s.key[(getV s x).toNat] = true then s.pc + 4 else s.pc + 2 }
          ∧ exec (.sknp x) s = .next { s with pc := if s.key[(getV s x).toNat] = false then s.pc + 4 else s.pc + 2 })
      ∧ (15 < (getV s x).toNat →
          exec (.skp x) s = .next { s with
              fault := some { cause := .keyIndex (getV s x), addr := s.pc, opcode := some (encode (.skp x)) } }
            ∧ exec (.sknp x) s = .next { s with
                fault := some { cause := .keyIndex (getV s x), addr := s.pc, opcode := some (encode (.sknp x)) } })

/-! ### Register arithmetic and logic -/

/-- 42_alu.md rules R140, R142 and 45_keypad_timer_random.md rule R192: the three copies into V[X]. -/
def Obligations.CopiesWriteOnlyVX : Prop :=
  ∀ (x y : Reg) (nn : Byte) (s : State),
    (∃ t, exec (.ldNN x nn) s = .next t ∧ t = { s with pc := s.pc + 2, v := t.v }
        ∧ ∀ r, getV t r = if r = x then nn else getV s r)
      ∧ (∃ t, exec (.ldVY x y) s = .next t ∧ t = { s with pc := s.pc + 2, v := t.v }
          ∧ ∀ r, getV t r = if r = x then getV s y else getV s r)
      ∧ (∃ t, exec (.ldVXDT x) s = .next t ∧ t = { s with pc := s.pc + 2, v := t.v }
          ∧ ∀ r, getV t r = if r = x then s.dt else getV s r)

/-- 42_alu.md rule R141: the wrapped sum, no flag. -/
def Obligations.AddLiteralSetsNoFlag : Prop :=
  ∀ (x : Reg) (nn : Byte) (s : State),
    ∃ t, exec (.addNN x nn) s = .next t ∧ t = { s with pc := s.pc + 2, v := t.v }
      ∧ ∀ r, (getV t r).toNat = if r = x then ((getV s x).toNat + nn.toNat) % 256 else (getV s r).toNat

/-- 42_alu.md rules R143 to R145: the bitwise operations; in legacy mode VF ends as 0, in modern mode it is untouched
unless it is V[X]. That the zero is what remains with X = 15 is the spec's decision D7. -/
def Obligations.LogicZeroesVFInLegacyOnly : Prop :=
  ∀ (x y : Reg) (s : State),
    (∃ t, exec (.orVY x y) s = .next t ∧ t = { s with pc := s.pc + 2, v := t.v }
        ∧ ∀ r, getV t r = if s.mode = .legacy ∧ r = 15 then 0
            else if r = x then getV s x ||| getV s y else getV s r)
      ∧ (∃ t, exec (.andVY x y) s = .next t ∧ t = { s with pc := s.pc + 2, v := t.v }
          ∧ ∀ r, getV t r = if s.mode = .legacy ∧ r = 15 then 0
              else if r = x then getV s x &&& getV s y else getV s r)
      ∧ (∃ t, exec (.xorVY x y) s = .next t ∧ t = { s with pc := s.pc + 2, v := t.v }
          ∧ ∀ r, getV t r = if s.mode = .legacy ∧ r = 15 then 0
              else if r = x then getV s x ^^^ getV s y else getV s r)

/-- 42_alu.md rule R146: the sum modulo 256 in V[X], then the carry in VF, both from the old operands (the order of the
two writes is the spec's decision D7). -/
def Obligations.AddSetsCarry : Prop :=
  ∀ (x y : Reg) (s : State),
    ∃ t, exec (.addVY x y) s = .next t ∧ t = { s with pc := s.pc + 2, v := t.v }
      ∧ ∀ r, (getV t r).toNat =
          if r = 15 then (if 255 < (getV s x).toNat + (getV s y).toNat then 1 else 0)
          else if r = x then ((getV s x).toNat + (getV s y).toNat) % 256 else (getV s r).toNat

/-- 42_alu.md rules R147 and R149: the difference modulo 256 in V[X], then the no-borrow flag in VF (the order of the
two writes is the spec's decision D7). -/
def Obligations.SubtractsSetNoBorrow : Prop :=
  ∀ (x y : Reg) (s : State),
    (∃ t, exec (.subVY x y) s = .next t ∧ t = { s with pc := s.pc + 2, v := t.v }
        ∧ ∀ r, ((getV t r).toNat : Int) =
            if r = 15 then (if (getV s y).toNat ≤ (getV s x).toNat then 1 else 0)
            else if r = x then (((getV s x).toNat : Int) - (getV s y).toNat) % 256 else (getV s r).toNat)
      ∧ (∃ t, exec (.subnVY x y) s = .next t ∧ t = { s with pc := s.pc + 2, v := t.v }
          ∧ ∀ r, ((getV t r).toNat : Int) =
              if r = 15 then (if (getV s x).toNat ≤ (getV s y).toNat then 1 else 0)
              else if r = x then (((getV s y).toNat : Int) - (getV s x).toNat) % 256 else (getV s r).toNat)

/-- 42_alu.md rules R148 and R150: the shift by one of V[Y] in legacy mode and of V[X] in modern mode; VF is the bit
shifted out (the order of the two writes is the spec's decision D7). -/
def Obligations.ShiftsTakeTheirSourceByMode : Prop :=
  ∀ (x y : Reg) (s : State) (src : Nat),
    src = (if s.mode = .legacy then (getV s y).toNat else (getV s x).toNat) →
    (∃ t, exec (.shrVY x y) s = .next t ∧ t = { s with pc := s.pc + 2, v := t.v }
        ∧ ∀ r, (getV t r).toNat = if r = 15 then src % 2 else if r = x then src / 2 else (getV s r).toNat)
      ∧ (∃ t, exec (.shlVY x y) s = .next t ∧ t = { s with pc := s.pc + 2, v := t.v }
          ∧ ∀ r, (getV t r).toNat = if r = 15 then src / 128 else if r = x then src * 2 % 256 else (getV s r).toNat)

/-! ### Index register and memory -/

/-- 43_index_memory.md rules R160 to R162: ANNN, FX1E and FX29 set I and nothing else. -/
def Obligations.IndexWritesOnlyI : Prop :=
  ∀ (nnn : BitVec 12) (x : Reg) (s : State),
    (∃ t, exec (.ldI nnn) s = .next t ∧ t = { s with pc := s.pc + 2, index := t.index } ∧ t.index.toNat = nnn.toNat)
      ∧ (∃ t, exec (.addIVX x) s = .next t ∧ t = { s with pc := s.pc + 2, index := t.index }
          ∧ t.index.toNat = (s.index.toNat + (getV s x).toNat) % 65536)
      ∧ (∃ t, exec (.ldFVX x) s = .next t ∧ t = { s with pc := s.pc + 2, index := t.index }
          ∧ t.index.toNat = (getV s x).toNat * 5)

/-- 43_index_memory.md rule R163: FX33 stores the three decimal digits; if one of the three addresses is out of range
it faults and stores nothing (the fault is the spec's decision D3). -/
def Obligations.StoresDecimalDigits : Prop :=
  ∀ (x : Reg) (s : State),
    (baseAddress s + 2 < 0x1000 →
        ∃ t, exec (.ldBVX x) s = .next t ∧ t = { s with pc := s.pc + 2, mem := t.mem }
          ∧ (t.mem.read (baseAddress s)).toNat = (getV s x).toNat / 100
          ∧ (t.mem.read (baseAddress s + 1)).toNat = (getV s x).toNat / 10 % 10
          ∧ (t.mem.read (baseAddress s + 2)).toNat = (getV s x).toNat % 10
          ∧ ∀ a, a < baseAddress s ∨ baseAddress s + 2 < a → t.mem.read a = s.mem.read a)
      ∧ (0x1000 ≤ baseAddress s + 2 →
          exec (.ldBVX x) s = .next { s with
            fault := some { cause := .memoryBounds (max (baseAddress s) 0x1000), addr := s.pc,
                            opcode := some (encode (.ldBVX x)) } })

/-- 43_index_memory.md rule R164: FX55 stores V0 to VX from I on; in legacy mode I then points past the last byte; if
an address is out of range it faults and stores nothing (the fault is the spec's decision D3). -/
def Obligations.StoresRegisters : Prop :=
  ∀ (x : Reg) (s : State),
    (baseAddress s + x.val < 0x1000 →
        ∃ t, exec (.storeVX x) s = .next t ∧ t = { s with pc := s.pc + 2, mem := t.mem, index := t.index }
          ∧ (∀ r : Reg, r.val ≤ x.val → t.mem.read (baseAddress s + r.val) = getV s r)
          ∧ (∀ a, a < baseAddress s ∨ baseAddress s + x.val < a → t.mem.read a = s.mem.read a)
          ∧ t.index.toNat = if s.mode = .legacy then s.index.toNat + x.val + 1 else s.index.toNat)
      ∧ (0x1000 ≤ baseAddress s + x.val →
          exec (.storeVX x) s = .next { s with
            fault := some { cause := .memoryBounds (max (baseAddress s) 0x1000), addr := s.pc,
                            opcode := some (encode (.storeVX x)) } })

/-- 43_index_memory.md rule R165: FX65 loads V0 to VX from I on; in legacy mode I then points past the last byte; if an
address is out of range it faults and loads nothing (the fault is the spec's decision D3). -/
def Obligations.LoadsRegisters : Prop :=
  ∀ (x : Reg) (s : State),
    (baseAddress s + x.val < 0x1000 →
        ∃ t, exec (.loadVX x) s = .next t ∧ t = { s with pc := s.pc + 2, v := t.v, index := t.index }
          ∧ (∀ r : Reg, getV t r = if r.val ≤ x.val then s.mem.read (baseAddress s + r.val) else getV s r)
          ∧ t.index.toNat = if s.mode = .legacy then s.index.toNat + x.val + 1 else s.index.toNat)
      ∧ (0x1000 ≤ baseAddress s + x.val →
          exec (.loadVX x) s = .next { s with
            fault := some { cause := .memoryBounds (max (baseAddress s) 0x1000), addr := s.pc,
                            opcode := some (encode (.loadVX x)) } })

/-- A store by FX55 is seen by a later fetch, V[r] as the high byte of the opcode (20_memory.md rules R66, R74). That a
store is seen by the fetch is the spec's decision D10, and R66's sentence on the high byte is the spec's own
inference. -/
def Obligations.StoreIsSeenByTheFetch : Prop :=
  ∀ (x : Reg) (s : State) (r q : Reg), q.val = r.val + 1 → q.val ≤ x.val → baseAddress s + x.val < 0x1000 →
    ∃ t, exec (.storeVX x) s = .next t
      ∧ fetch { t with pc := BitVec.ofNat 16 (baseAddress s + r.val) } = .ok (wordOfBytes (getV s r) (getV s q))

/-- Two canonical memories with the same bytes are the same data: equal memories are equal lists (model's form of
10_state.md rule R36). -/
def Obligations.CanonicalMemoryIsUnique : Prop :=
  ∀ m n : Memory, m.wf → n.wf → (∀ a, m.read a = n.read a) → m = n

/-! ### Display -/

/-- 44_display.md rule R176: CLS turns every pixel off and marks redraw pending. -/
def Obligations.ClearTurnsEveryPixelOff : Prop :=
  ∀ s : State, ∃ t, exec .cls s = .next t ∧ t = { s with pc := s.pc + 2, disp := t.disp, redraw := true }
    ∧ ∀ y x, y < 32 → x < 64 → pixel t.disp y x = false

/-- 44_display.md rule R177: DXYN inverts exactly the pixels that receive a sprite bit of 1, clipped at the right and
bottom edges, from the origin sampled before VF changes; VF is the collision flag; redraw is set; a drawn row out of
memory is a fault that commits nothing (the fault, the unread clipped rows and the order of VF are the spec's decisions
D3, D8). -/
def Obligations.DrawXorsTheClippedSprite : Prop :=
  ∀ (x y : Reg) (n : BitVec 4) (s : State) (x0 y0 rows : Nat),
    x0 = (getV s x).toNat % 64 → y0 = (getV s y).toNat % 32 → rows = min n.toNat (32 - y0) →
      (rows = 0 ∨ baseAddress s + rows ≤ 0x1000 →
          ∃ t, exec (.drw x y n) s = .next t
            ∧ t = { s with pc := s.pc + 2, v := t.v, disp := t.disp, redraw := true }
            ∧ (∀ py px, py < 32 → px < 64 → pixel t.disp py px =
                (pixel s.disp py px ^^ spriteBit s.mem (baseAddress s) y0 x0 rows py px))
            ∧ (∀ r : Reg, r ≠ 15 → getV t r = getV s r)
            ∧ ((∃ py px, py < 32 ∧ px < 64 ∧ spriteBit s.mem (baseAddress s) y0 x0 rows py px = true
                  ∧ pixel s.disp py px = true) → getV t 15 = 1)
            ∧ ((∀ py px, py < 32 → px < 64 → spriteBit s.mem (baseAddress s) y0 x0 rows py px = true →
                  pixel s.disp py px = false) → getV t 15 = 0))
        ∧ (0 < rows → 0x1000 < baseAddress s + rows →
            exec (.drw x y n) s = .next { s with
              fault := some { cause := .memoryBounds (max (baseAddress s) 0x1000), addr := s.pc,
                              opcode := some (encode (.drw x y n)) } })

/-- 44_display.md rule R178(a): drawing the same sprite twice at the same origin restores the display. VF is then 1
exactly if a visible sprite bit of 1 fell on a pixel that was off before: on a display that is clear there this is
rule R178(c); where every such pixel was on it is 0, as rule R177 says and as program P3 of 95_test_vectors.md has it
after its third draw (log 16). That rows clipped off are not read is the spec's decision D8. -/
def Obligations.DrawingTwiceRestoresTheDisplay : Prop :=
  ∀ (x y : Reg) (n : BitVec 4) (s : State) (x0 y0 rows : Nat), x ≠ 15 → y ≠ 15 →
    x0 = (getV s x).toNat % 64 → y0 = (getV s y).toNat % 32 → rows = min n.toNat (32 - y0) →
    (rows = 0 ∨ baseAddress s + rows ≤ 0x1000) →
      ∃ t u, exec (.drw x y n) s = .next t ∧ exec (.drw x y n) t = .next u ∧ u.disp = s.disp ∧ u.redraw = true
        ∧ ((∃ py px, py < 32 ∧ px < 64 ∧ spriteBit s.mem (baseAddress s) y0 x0 rows py px = true
              ∧ pixel s.disp py px = false) → getV u 15 = 1)
        ∧ ((∀ py px, py < 32 → px < 64 → spriteBit s.mem (baseAddress s) y0 x0 rows py px = true →
              pixel s.disp py px = true) → getV u 15 = 0)

/-! ### Timers, keypad, random -/

/-- 45_keypad_timer_random.md rules R195 and R196: FX15 and FX18 write one timer and nothing else; `tone` does not
change. -/
def Obligations.TimerWritesSetOneTimer : Prop :=
  ∀ (x : Reg) (s : State),
    exec (.ldDTVX x) s = .next { s with pc := s.pc + 2, dt := getV s x }
      ∧ exec (.ldSTVX x) s = .next { s with pc := s.pc + 2, st := getV s x }

/-- 45_keypad_timer_random.md rule R193: the four rows of FX0A's state machine (that the latching step rewinds and the
least key wins is the spec's decision D26). -/
def Obligations.KeyWaitFollowsItsStateMachine : Prop :=
  ∀ (x : Reg) (s : State),
    (s.wait = .idle → (∀ k : Key, s.key[k.val] = false) → exec (.ldVXK x) s = .next s)
      ∧ (∀ k : Key, s.wait = .idle → s.key[k.val] = true → (∀ j : Key, j < k → s.key[j.val] = false) →
          exec (.ldVXK x) s = .next { s with wait := .keyLatched k })
      ∧ (∀ k : Key, s.wait = .keyLatched k → s.key[k.val] = true → exec (.ldVXK x) s = .next s)
      ∧ (∀ k : Key, s.wait = .keyLatched k → s.key[k.val] = false →
          ∃ t, exec (.ldVXK x) s = .next t ∧ t = { s with pc := s.pc + 2, v := t.v, wait := .idle }
            ∧ ∀ r, (getV t r).toNat = if r = x then k.val else (getV s r).toNat)

/-- 45_keypad_timer_random.md rule R194: no progress while no key is down; one press and release of a key completes
one FX0A with that key's number, and a second FX0A then waits for a new press. That the step which finds the key only
latches it and leaves `pc` is the spec's decision D26 (rule R193). -/
def Obligations.OnePressCompletesOneKeyWait : Prop :=
  ∀ (x x' : Reg) (k : Key) (s : State) (n m : Nat), s.wait = .idle → (∀ j : Key, s.key[j.val] = false) →
    execAll (List.replicate n (.ldVXK x)) s = .next s
      ∧ execAll (List.replicate (m + 1) (.ldVXK x)) { s with key := s.key.set k.val true }
          = .next { s with key := s.key.set k.val true, wait := .keyLatched k }
      ∧ ∃ t, exec (.ldVXK x) { s with wait := .keyLatched k } = .next t
          ∧ t = { s with pc := s.pc + 2, v := t.v } ∧ (getV t x).toNat = k.val
          ∧ exec (.ldVXK x') t = .next t

/-- CXNN writes a free byte ANDed with the literal and draws one byte; the result is a submask of the literal whatever
is drawn (45_keypad_timer_random.md rule R198; that the byte is free is the spec's decision D14, it is the
model's `Config.randomByte`, log 6). -/
def Obligations.RandomIsMaskedFreeByte : Prop :=
  ∀ (x : Reg) (nn : Byte) (s : State),
    ∃ t, exec (.rnd x nn) s = .next t ∧ t = { s with pc := s.pc + 2, v := t.v, draws := s.draws + 1 }
      ∧ (∀ r, getV t r = if r = x then Config.randomByte s.draws &&& nn else getV s r)
      ∧ getV t x &&& nn = getV t x ∧ (getV t x).toNat ≤ nn.toNat

/-! ### The Timer/Audio-Gate Controller and the host interface -/

/-- 60_exceptions.md rules R234 and R235: a tick decrements both timers with floor 0, takes the tone level from the
sound timer after or before the decrement as AUDIO_GATE_SAMPLE says (an open parameter, D15), and changes nothing
else. -/
def Obligations.TickDecrementsAndGates : Prop :=
  ∀ (s : State) (rest : List HostEvent), s.fault = none → s.paused = false → s.pending = .tick :: rest →
    ∃ t, step s = .next t ∧ t = { s with pending := rest, dt := t.dt, st := t.st, tone := t.tone }
      ∧ t.dt.toNat = s.dt.toNat - 1 ∧ t.st.toNat = s.st.toNat - 1
      ∧ (s.params.audioGate = .postDecrement → (t.tone = true ↔ 0 < t.st.toNat))
      ∧ (s.params.audioGate = .preDecrement → (t.tone = true ↔ 0 < s.st.toNat))

/-- After `n` ticks a timer holds its value less `n`, at least 0, and the tone sounds for `ST − 1` frames under
`post_decrement` and for `ST` frames under `pre_decrement` (60_exceptions.md rules R234, R235; an open parameter,
D15). -/
def Obligations.TimersReachZeroAfterTheirTicks : Prop :=
  ∀ (n : Nat) (s : State),
    (ticks n s).dt.toNat = s.dt.toNat - n ∧ (ticks n s).st.toNat = s.st.toNat - n
      ∧ (0 < n → s.params.audioGate = .postDecrement → ((ticks n s).tone = true ↔ n < s.st.toNat))
      ∧ (0 < n → s.params.audioGate = .preDecrement → ((ticks n s).tone = true ↔ n ≤ s.st.toNat))

/-- 60_exceptions.md rule R237: a key event sets the level of its key and changes nothing else, in every state, paused
or faulted too. -/
def Obligations.KeyEventSetsOneLevel : Prop :=
  ∀ (s : State) (k : Key) (rest : List HostEvent),
    (s.pending = .input (.keyDown k) :: rest →
        ∃ t, step s = .next t ∧ t = { s with pending := rest, key := t.key }
          ∧ ∀ j : Key, t.key[j.val] = if j = k then true else s.key[j.val])
      ∧ (s.pending = .input (.keyUp k) :: rest →
          ∃ t, step s = .next t ∧ t = { s with pending := rest, key := t.key }
            ∧ ∀ j : Key, t.key[j.val] = if j = k then false else s.key[j.val])

/-- The explicit reset gives every element its reset value, the memory from the same image, the mode a new value, in
every state (60_exceptions.md rule R242, 10_state.md rule R38; the values of I, stack, key, redraw, tone and fault are
the spec's decisions D5, D11). Where the image is that of a machine the loader built from some ROM, FONT and MEM_FILL,
the machine becomes that machine again, in the mode given: the reset is against the same ROM (70_reset_and_hazards.md
rule R270). That the host's pause flag and queue, the parameters, the image and the count of draws stay is the model's
choice (log 12). -/
def Obligations.ResetCommandRestoresEveryElement : Prop :=
  ∀ (s : State) (mode : Mode) (rest : List HostEvent), s.pending = .input (.reset mode) :: rest →
    ∃ t, step s = .next t ∧ t.mem = s.image ∧ (∀ r, getV t r = 0) ∧ t.index = 0 ∧ t.pc = 0x200 ∧ t.stack = []
      ∧ t.dt = 0 ∧ t.st = 0 ∧ (∀ y x, pixel t.disp y x = false) ∧ (∀ k : Key, t.key[k.val] = false)
      ∧ t.redraw = false ∧ t.mode = mode ∧ t.wait = .idle ∧ t.tone = false ∧ t.fault = none
      ∧ t.params = s.params ∧ t.image = s.image ∧ t.paused = s.paused ∧ t.pending = rest ∧ t.draws = s.draws
      ∧ ∀ (rom : List Byte) (font : Vector Byte 80) (fill : Nat → Byte) (before : Mode) (u : State),
          loadRom rom font fill before s.params = some u → s.image = u.mem →
            t = { u with mode := mode, paused := s.paused, pending := rest, draws := s.draws }

/-- Pausing freezes execution, ticking and the handoff but not the input poll, and resuming continues from the same
state (60_exceptions.md rule R241). The pause flag and the idle step with an empty queue are the model's (log 10). -/
def Obligations.PauseFreezesAllButInput : Prop :=
  ∀ (s : State) (rest : List HostEvent),
    (s.pending = .input .pause :: rest → step s = .next { s with pending := rest, paused := true })
      ∧ (s.pending = .input .resume :: rest → step s = .next { s with pending := rest, paused := false })
      ∧ (s.paused = true → s.pending = .step :: rest → step s = .next { s with pending := rest })
      ∧ (s.paused = true → s.pending = .tick :: rest → step s = .next { s with pending := rest })
      ∧ (s.paused = true → s.pending = .render :: rest → step s = .next { s with pending := rest })
      ∧ (s.paused = true → s.fault = none → s.pending = [] → step s = .next s)

/-- The handoff clears the redraw flag of a machine that is neither paused nor faulted and changes nothing else
(60_exceptions.md rule R244); the host's quit ends the run with no state (rule R243). -/
def Obligations.HandoffClearsRedrawAndQuitEnds : Prop :=
  ∀ (s : State) (rest : List HostEvent),
    (s.fault = none → s.paused = false → s.pending = .render :: rest →
        step s = .next { s with pending := rest, redraw := false })
      ∧ (s.pending = .input .quit :: rest → step s = .refused .quit)

/-- Running the events of one frame one after the other is one frame of the Frame Driver: the poll, then unless paused
up to STEPS_PER_FRAME steps until a fault, one tick unless faulted, the handoff (60_exceptions.md rule R238).
That a fault ends the steps and the tick is the spec's decision D22; the queue and the handoff after a fault are the
model's (log 7, 9, 11). -/
def Obligations.FrameEventsRunOneFrame : Prop :=
  ∀ (s : State) (poll : List InputEvent), s.pending = [] →
    Host.Core.run core (frameEvents s.params poll).length { s with pending := frameEvents s.params poll }
      = match frame poll s with
        | some t => .next t
        | none => .refused .quit

/-! ### Reset -/

/-- 70_reset_and_hazards.md rule R270: the reset state built from ROM, FONT, MEM_FILL and MODE, element by element (the
values of I, stack, key, redraw, tone and fault are the spec's decisions D5, D11). STACK_DEPTH is at least 1
(00_scope.md rule R6). The model's own fields: `image` keeps the memory built, `params` the parameters given, nothing
is pending, paused or drawn (log 2, 5, 6, 7, 12). -/
def Obligations.LoaderBuildsTheResetState : Prop :=
  ∀ (rom : List Byte) (font : Vector Byte 80) (fill : Nat → Byte) (mode : Mode) (params : Params),
    rom.length ≤ 3584 → 1 ≤ params.stackDepth →
      ∃ t, loadRom rom font fill mode params = some t
        ∧ (∀ (j : Nat) (h : j < rom.length), t.mem.read (0x200 + j) = rom[j])
        ∧ (∀ (j : Nat) (h : j < 80), t.mem.read j = font[j])
        ∧ (∀ a, (80 ≤ a ∧ a < 0x200) ∨ (0x200 + rom.length ≤ a ∧ a < 0x1000) → t.mem.read a = fill a)
        ∧ (∀ r, getV t r = 0) ∧ t.index = 0 ∧ t.pc = 0x200 ∧ t.stack = [] ∧ t.dt = 0 ∧ t.st = 0 ∧ t.tone = false
        ∧ (∀ y x, pixel t.disp y x = false) ∧ t.redraw = false ∧ (∀ k : Key, t.key[k.val] = false)
        ∧ t.wait = .idle ∧ t.mode = mode ∧ t.fault = none
        ∧ t.image = t.mem ∧ t.params = params ∧ t.pending = [] ∧ t.paused = false ∧ t.draws = 0

/-- An oversized ROM never reaches the machine, and every other one does, the empty one too (70_reset_and_hazards.md
rule R271; the empty ROM is the spec's decision D12), on every instance that may exist: one whose STACK_DEPTH is at
least 1 (00_scope.md rule R6; that the loader refuses another is the model's form, log 2). -/
def Obligations.OversizedRomIsRejected : Prop :=
  ∀ (rom : List Byte) (font : Vector Byte 80) (fill : Nat → Byte) (mode : Mode) (params : Params),
    loadRom rom font fill mode params = none ↔ 3584 < rom.length ∨ params.stackDepth = 0

/-- The elements whose reset value the source states: registers, timers and display zeroed, `pc` at 0x200, the wait
latch idle (10_state.md rule R38, the rows marked stated). -/
def Obligations.ResetLeavesTheStatedValues : Prop :=
  (∀ r, getV State.reset r = 0) ∧ State.reset.pc = 0x200 ∧ State.reset.dt = 0 ∧ State.reset.st = 0
    ∧ (∀ y x, pixel State.reset.disp y x = false) ∧ State.reset.wait = .idle

/-! ### Faults -/

/-- 60_exceptions.md rule R230 (the spec's decision D5): a faulting step, the fetch's fault included, changes nothing but
the fault record, which holds the address and, for an instruction, its opcode. -/
def Obligations.FaultCommitsNothing : Prop :=
  (∀ (i : Instr) (s t : State), exec i s = .next t → t.fault ≠ s.fault →
      t = { s with fault := t.fault } ∧ ∃ c, t.fault = some { cause := c, addr := s.pc, opcode := some (encode i) })
    ∧ ∀ s t : State, engineStep s = .next t → t.fault ≠ s.fault →
        t = { s with fault := t.fault } ∧ ∃ c o, t.fault = some { cause := c, addr := s.pc, opcode := o }
          ∧ (o = none ↔ 0x0FFF ≤ s.pc.toNat)

/-- Which instruction can raise which cause, and the information recorded (60_exceptions.md rules R220, R228; the last
two causes are the spec's decisions D3, D4). -/
def Obligations.EachInstructionHasOneFaultCause : Prop :=
  ∀ (i : Instr) (s t : State) (r : FaultRecord), exec i s = .next t → s.fault = none → t.fault = some r →
    (r.cause = .stackOverflow ∧ ∃ nnn, i = .call nnn)
      ∨ (r.cause = .stackUnderflow ∧ i = .ret)
      ∨ (r.cause = .memoryBounds (max (baseAddress s) 0x1000)
          ∧ ((∃ x y n, i = .drw x y n) ∨ (∃ x, i = .ldBVX x) ∨ (∃ x, i = .storeVX x) ∨ ∃ x, i = .loadVX x))
      ∨ (∃ x, r.cause = .keyIndex (getV s x) ∧ 15 < (getV s x).toNat ∧ (i = .skp x ∨ i = .sknp x))

/-- A faulted machine takes no step and no tick; with nothing pending it is stopped; only the host's reset clears the
record (60_exceptions.md rules R229, R231, R242; the spec's decisions D2, D22). -/
def Obligations.FaultedMachineIsStopped : Prop :=
  ∀ (s : State) (r : FaultRecord), s.fault = some r →
    (s.pending = [] → step s = .fault (.stopped r))
      ∧ (∀ rest, s.pending = .step :: rest → step s = .next { s with pending := rest })
      ∧ (∀ rest, s.pending = .tick :: rest → step s = .next { s with pending := rest })
      ∧ ∀ t, step s = .next t → t.fault = some r ∨ ∃ mode rest, s.pending = .input (.reset mode) :: rest

/-! ### The whole machine -/

/-- Every instruction answers a next state in every state: a step always completes or faults, and a fault is a next
state with its record (70_reset_and_hazards.md rule R283). -/
def Obligations.EveryInstructionAnswersNext : Prop := ∀ (i : Instr) (s : State), ∃ t, exec i s = .next t

/-- An instruction changes no register but the ones it names as a destination and, for the instructions of
10_state.md rule R22's table, VF. -/
def Obligations.OnlyNamedRegistersAndFlagChange : Prop :=
  ∀ (i : Instr) (s t : State) (r : Reg), exec i s = .next t → namesDestination i r = false →
    (r = 15 → writesVF s.mode i = false) → getV t r = getV s r

/-- The instructions of 10_state.md rule R22's table leave exactly 0 or 1 in VF when they complete (rule R40(d);
with X = 15 too, the spec's decision D7). -/
def Obligations.FlagIsZeroOrOne : Prop :=
  ∀ (i : Instr) (s t : State), exec i s = .next t → writesVF s.mode i = true → s.fault = none → t.fault = none →
    getV t 15 = 0 ∨ getV t 15 = 1

/-- Who writes what (10_state.md rule R37): memory only FX33 and FX55, the stack only 2NNN and 00EE, and so on; no
instruction writes the keypad, the mode or the tone. That CXNN alone counts draws and that no instruction changes the
parameters, the image, the pause flag or the queue is said of the model's own fields (log 2, 5, 6, 7, 12). -/
def Obligations.EachElementHasItsWriters : Prop :=
  ∀ (i : Instr) (s t : State), exec i s = .next t →
    (t.mem ≠ s.mem → (∃ x, i = .ldBVX x) ∨ ∃ x, i = .storeVX x)
      ∧ (t.stack ≠ s.stack → i = .ret ∨ ∃ nnn, i = .call nnn)
      ∧ (t.index ≠ s.index → (∃ nnn, i = .ldI nnn) ∨ (∃ x, i = .addIVX x) ∨ (∃ x, i = .ldFVX x)
          ∨ (s.mode = .legacy ∧ ((∃ x, i = .storeVX x) ∨ ∃ x, i = .loadVX x)))
      ∧ (t.dt ≠ s.dt → ∃ x, i = .ldDTVX x)
      ∧ (t.st ≠ s.st → ∃ x, i = .ldSTVX x)
      ∧ (t.disp ≠ s.disp ∨ t.redraw ≠ s.redraw → i = .cls ∨ ∃ x y n, i = .drw x y n)
      ∧ (t.wait ≠ s.wait → ∃ x, i = .ldVXK x)
      ∧ (t.draws ≠ s.draws → ∃ x nn, i = .rnd x nn)
      ∧ t.key = s.key ∧ t.mode = s.mode ∧ t.tone = s.tone ∧ t.params = s.params ∧ t.image = s.image
      ∧ t.paused = s.paused ∧ t.pending = s.pending

/-- The mode changes the meaning of no instruction but the seven of 00_scope.md rule R2. -/
def Obligations.ModeMattersForSevenOnly : Prop :=
  ∀ (i : Instr) (s : State) (mode : Mode), modeDependent i = false →
    exec i { s with mode := mode } = mapNext (fun t => { t with mode := mode }) (exec i s)

/-- No program can observe ST, tone or redraw: whatever they hold, an instruction does the same to everything else
(60_exceptions.md rule R227). -/
def Obligations.SoundAndRedrawAreUnobservable : Prop :=
  ∀ (i : Instr) (s : State) (st : Byte) (tone redraw : Bool),
    ∃ t u, exec i s = .next t ∧ exec i { s with st := st, tone := tone, redraw := redraw } = .next u
      ∧ u = { t with st := u.st, tone := u.tone, redraw := u.redraw }

/-- A settled program stays as it is: a step changes nothing, and neither a tick nor a handoff unsettles it
(70_reset_and_hazards.md rule R282; what settled means is the spec's decision D19). -/
def Obligations.SettledStateIsAFixedPoint : Prop :=
  ∀ s : State, Settled s →
    engineStep s = .next s ∧ Settled (tick s) ∧ Settled (render s)
      ∧ (s.fault = none → s.pending = [] → step s = .next s)

/-- The mode and a recorded fault change only by the reset command (10_state.md rule R40(e), (f); for the fault the
spec's decision D22). That the parameters and the loader's image never change, in the reset command neither, is the
model's choice (log 2, 12): 00_scope.md rule R9 makes them parameters of the instance and no state. -/
def Obligations.ModeAndFaultChangeOnlyByReset : Prop :=
  ∀ s t : State, step s = .next t →
    t.params = s.params ∧ t.image = s.image
      ∧ (t.mode ≠ s.mode → ∃ mode rest, s.pending = .input (.reset mode) :: rest)
      ∧ (s.fault ≠ none → t.fault ≠ s.fault → ∃ mode rest, s.pending = .input (.reset mode) :: rest)

/-- The invariant holds right after reset (10_state.md rule R40). State.reset's memory and parameters are the model's
(log 2 to 5), its empty stack the spec's decision D11. -/
def Obligations.ResetStateMeetsTheInvariants : Prop := Inv State.reset

/-- The invariant holds of every machine the loader builds, whatever ROM, font, fill, mode and parameters
(10_state.md rule R40, 70_reset_and_hazards.md rule R270; the empty stack is the spec's decision D11). -/
def Obligations.LoadedMachineMeetsTheInvariants : Prop :=
  ∀ (rom : List Byte) (font : Vector Byte 80) (fill : Nat → Byte) (mode : Mode) (params : Params) (t : State),
    loadRom rom font fill mode params = some t → Inv t

/-- 10_state.md rule R40(a) to (c): every step, tick and host event keeps the stack within STACK_DEPTH and its entries
at most 0x1000, `pc` at most 0x10FE, the wait latch on an FX0A at `pc`, memory canonical and the parameters legal. -/
def Obligations.EveryStepKeepsTheInvariants : Prop := ∀ s t : State, Inv s → step s = .next t → Inv t
end

