-- ==== Sys2Proof/Laws/Decode.lean ====
section
/-! SUPPORT. The fields of an encoded word are the fields that were encoded, and a word is the concatenation of its
fields (30_encoding.md rules R91, R92). -/

namespace Sys2Proof

@[simp] theorem regOf_fieldOf (r : Reg) : regOf (fieldOf r) = r := by
  apply Fin.ext
  simp only [regOf, fieldOf, BitVec.toNat_ofNat]
  omega

@[simp] theorem fieldOf_regOf (b : BitVec 4) : fieldOf (regOf b) = b := by
  simp [fieldOf, regOf]

/-! ### Encoded words as numbers -/

theorem toNat_append_eq {a b : Nat} (x : BitVec a) (y : BitVec b) :
    (x ++ y).toNat = x.toNat * 2 ^ b + y.toNat := by
  rw [BitVec.toNat_append, ← Nat.shiftLeft_add_eq_or_of_lt y.isLt, Nat.shiftLeft_eq]

theorem toNat_fieldOf (r : Reg) : (fieldOf r).toNat = r.val := by
  simp only [fieldOf, BitVec.toNat_ofNat]
  omega

theorem toNat_encodeNNN (f : BitVec 4) (nnn : BitVec 12) :
    (encodeNNN f nnn).toNat = f.toNat * 4096 + nnn.toNat := toNat_append_eq f nnn

theorem toNat_encodeXNN (f : BitVec 4) (x : Reg) (nn : Byte) :
    (encodeXNN f x nn).toNat = f.toNat * 4096 + x.val * 256 + nn.toNat := by
  have h : (encodeXNN f x nn).toNat = ((f ++ fieldOf x) ++ nn).toNat := rfl
  rw [h, toNat_append_eq, toNat_append_eq, toNat_fieldOf]
  omega

theorem toNat_encodeXYN (f : BitVec 4) (x y : Reg) (n : BitVec 4) :
    (encodeXYN f x y n).toNat = f.toNat * 4096 + x.val * 256 + y.val * 16 + n.toNat := by
  have h : (encodeXYN f x y n).toNat = (((f ++ fieldOf x) ++ fieldOf y) ++ n).toNat := rfl
  rw [h, toNat_append_eq, toNat_append_eq, toNat_append_eq, toNat_fieldOf, toNat_fieldOf]
  omega

theorem toNat_wordOfBytes (hi lo : Byte) : (wordOfBytes hi lo).toNat = hi.toNat * 256 + lo.toNat :=
  toNat_append_eq hi lo

theorem toNat_highByte (w : Word) : (highByte w).toNat = w.toNat / 256 := by
  have := w.isLt
  simp only [highByte, BitVec.extractLsb'_toNat, Nat.shiftRight_eq_div_pow]
  omega

theorem toNat_lowByte (w : Word) : (lowByte w).toNat = w.toNat % 256 := by
  simp [lowByte, BitVec.extractLsb'_toNat]

/-! ### Fields as numbers -/

theorem toNat_familyField (w : Word) : (familyField w).toNat = w.toNat / 4096 := by
  have := w.isLt
  simp only [familyField, BitVec.extractLsb'_toNat, Nat.shiftRight_eq_div_pow]
  omega

theorem val_xField (w : Word) : (xField w).val = w.toNat / 256 % 16 := by
  simp [xField, regOf, BitVec.extractLsb'_toNat, Nat.shiftRight_eq_div_pow]

theorem val_yField (w : Word) : (yField w).val = w.toNat / 16 % 16 := by
  simp [yField, regOf, BitVec.extractLsb'_toNat, Nat.shiftRight_eq_div_pow]

theorem toNat_nField (w : Word) : (nField w).toNat = w.toNat % 16 := by
  simp [nField, BitVec.extractLsb'_toNat]

theorem toNat_nnField (w : Word) : (nnField w).toNat = w.toNat % 256 := by
  simp [nnField, BitVec.extractLsb'_toNat]

theorem toNat_nnnField (w : Word) : (nnnField w).toNat = w.toNat % 4096 := by
  simp [nnnField, BitVec.extractLsb'_toNat]


/-! ### Fields of each format -/

@[simp] theorem familyField_encodeNNN (f : BitVec 4) (nnn : BitVec 12) : familyField (encodeNNN f nnn) = f := by
  apply BitVec.eq_of_toNat_eq
  have := f.isLt; have := nnn.isLt
  rw [toNat_familyField, toNat_encodeNNN]; omega

@[simp] theorem nnnField_encodeNNN (f : BitVec 4) (nnn : BitVec 12) : nnnField (encodeNNN f nnn) = nnn := by
  apply BitVec.eq_of_toNat_eq
  have := f.isLt; have := nnn.isLt
  rw [toNat_nnnField, toNat_encodeNNN]; omega

@[simp] theorem familyField_encodeXNN (f : BitVec 4) (x : Reg) (nn : Byte) :
    familyField (encodeXNN f x nn) = f := by
  apply BitVec.eq_of_toNat_eq
  have := f.isLt; have := x.isLt; have := nn.isLt
  rw [toNat_familyField, toNat_encodeXNN]; omega

@[simp] theorem xField_encodeXNN (f : BitVec 4) (x : Reg) (nn : Byte) : xField (encodeXNN f x nn) = x := by
  apply Fin.ext
  have := f.isLt; have := x.isLt; have := nn.isLt
  rw [val_xField, toNat_encodeXNN]; omega

@[simp] theorem nnField_encodeXNN (f : BitVec 4) (x : Reg) (nn : Byte) : nnField (encodeXNN f x nn) = nn := by
  apply BitVec.eq_of_toNat_eq
  have := f.isLt; have := x.isLt; have := nn.isLt
  rw [toNat_nnField, toNat_encodeXNN]; omega

@[simp] theorem familyField_encodeXYN (f : BitVec 4) (x y : Reg) (n : BitVec 4) :
    familyField (encodeXYN f x y n) = f := by
  apply BitVec.eq_of_toNat_eq
  have := f.isLt; have := x.isLt; have := y.isLt; have := n.isLt
  rw [toNat_familyField, toNat_encodeXYN]; omega

@[simp] theorem xField_encodeXYN (f : BitVec 4) (x y : Reg) (n : BitVec 4) : xField (encodeXYN f x y n) = x := by
  apply Fin.ext
  have := f.isLt; have := x.isLt; have := y.isLt; have := n.isLt
  rw [val_xField, toNat_encodeXYN]; omega

@[simp] theorem yField_encodeXYN (f : BitVec 4) (x y : Reg) (n : BitVec 4) : yField (encodeXYN f x y n) = y := by
  apply Fin.ext
  have := f.isLt; have := x.isLt; have := y.isLt; have := n.isLt
  rw [val_yField, toNat_encodeXYN]; omega

@[simp] theorem nField_encodeXYN (f : BitVec 4) (x y : Reg) (n : BitVec 4) : nField (encodeXYN f x y n) = n := by
  apply BitVec.eq_of_toNat_eq
  have := f.isLt; have := x.isLt; have := y.isLt; have := n.isLt
  rw [toNat_nField, toNat_encodeXYN]; omega

/-! ### A word from its fields -/

theorem encodeNNN_fields (w : Word) : encodeNNN (familyField w) (nnnField w) = w := by
  apply BitVec.eq_of_toNat_eq
  rw [toNat_encodeNNN, toNat_familyField, toNat_nnnField]; omega

theorem encodeXNN_fields (w : Word) : encodeXNN (familyField w) (xField w) (nnField w) = w := by
  apply BitVec.eq_of_toNat_eq
  rw [toNat_encodeXNN, toNat_familyField, val_xField, toNat_nnField]; omega

theorem encodeXYN_fields (w : Word) : encodeXYN (familyField w) (xField w) (yField w) (nField w) = w := by
  apply BitVec.eq_of_toNat_eq
  rw [toNat_encodeXYN, toNat_familyField, val_xField, val_yField, toNat_nField]; omega

/-! ### The masks of the opcode map keep whole fields -/

theorem getLsbD_encodeNNN (f : BitVec 4) (nnn : BitVec 12) (i : Nat) :
    (encodeNNN f nnn).getLsbD i = bif i < 12 then nnn.getLsbD i else f.getLsbD (i - 12) := by
  have h : (encodeNNN f nnn).getLsbD i = (f ++ nnn).getLsbD i := rfl
  rw [h, BitVec.getLsbD_append]; simp [Bool.cond_decide]

theorem getLsbD_encodeXNN (f : BitVec 4) (x : Reg) (nn : Byte) (i : Nat) :
    (encodeXNN f x nn).getLsbD i =
      bif i < 8 then nn.getLsbD i else bif i < 12 then (fieldOf x).getLsbD (i - 8) else f.getLsbD (i - 12) := by
  have h : (encodeXNN f x nn).getLsbD i = ((f ++ fieldOf x) ++ nn).getLsbD i := rfl
  rw [h, BitVec.getLsbD_append, BitVec.getLsbD_append]
  simp only [Bool.cond_decide]
  by_cases h1 : i < 8
  · simp [h1]
  · by_cases h2 : i < 12
    · have : i - 8 < 4 := by omega
      simp [h1, h2, this]
    · have : ¬ i - 8 < 4 := by omega
      have e : i - 8 - 4 = i - 12 := by omega
      simp [h1, h2, this, e]

theorem getLsbD_encodeXYN (f : BitVec 4) (x y : Reg) (n : BitVec 4) (i : Nat) :
    (encodeXYN f x y n).getLsbD i =
      bif i < 4 then n.getLsbD i else bif i < 8 then (fieldOf y).getLsbD (i - 4)
        else bif i < 12 then (fieldOf x).getLsbD (i - 8) else f.getLsbD (i - 12) := by
  have h : (encodeXYN f x y n).getLsbD i = (((f ++ fieldOf x) ++ fieldOf y) ++ n).getLsbD i := rfl
  rw [h, BitVec.getLsbD_append, BitVec.getLsbD_append, BitVec.getLsbD_append]
  simp only [Bool.cond_decide]
  by_cases h1 : i < 4
  · simp [h1]
  · by_cases h2 : i < 8
    · have : i - 4 < 4 := by omega
      simp [h1, h2, this]
    · have h2' : ¬ i - 4 < 4 := by omega
      by_cases h3 : i < 12
      · have : i - 4 - 4 < 4 := by omega
        have e : i - 4 - 4 = i - 8 := by omega
        simp [h1, h2, h2', h3, e ▸ this, e]
      · have : ¬ i - 4 - 4 < 4 := by omega
        have e : i - 4 - 4 - 4 = i - 12 := by omega
        simp [h1, h2, h2', h3, this, e]

theorem mask_family (w : Word) : w &&& 0xF000#16 = encodeNNN (familyField w) 0 := by
  apply BitVec.eq_of_getLsbD_eq
  intro i hi
  rw [getLsbD_encodeNNN]
  interval_cases i <;> simp [familyField]

theorem mask_family_nn (w : Word) : w &&& 0xF0FF#16 = encodeXNN (familyField w) 0 (nnField w) := by
  apply BitVec.eq_of_getLsbD_eq
  intro i hi
  rw [getLsbD_encodeXNN]
  interval_cases i <;> simp [familyField, nnField, fieldOf]

theorem mask_family_n (w : Word) : w &&& 0xF00F#16 = encodeXYN (familyField w) 0 0 (nField w) := by
  apply BitVec.eq_of_getLsbD_eq
  intro i hi
  rw [getLsbD_encodeXYN]
  interval_cases i <;> simp [familyField, nField, fieldOf]

theorem mask_all (w : Word) : w &&& 0xFFFF#16 = w := BitVec.and_allOnes (x := w)

/-! ### The two bytes of a word -/

@[simp] theorem wordOfBytes_highByte_lowByte (w : Word) : wordOfBytes (highByte w) (lowByte w) = w := by
  apply BitVec.eq_of_toNat_eq
  rw [toNat_wordOfBytes, toNat_highByte, toNat_lowByte]; omega

@[simp] theorem highByte_wordOfBytes (hi lo : Byte) : highByte (wordOfBytes hi lo) = hi := by
  apply BitVec.eq_of_toNat_eq
  have := lo.isLt
  rw [toNat_highByte, toNat_wordOfBytes]; omega

@[simp] theorem lowByte_wordOfBytes (hi lo : Byte) : lowByte (wordOfBytes hi lo) = lo := by
  apply BitVec.eq_of_toNat_eq
  have := lo.isLt
  rw [toNat_lowByte, toNat_wordOfBytes]; omega

end Sys2Proof
end

