-- ==== Sys2Proof/Laws/Display.lean ====
section
/-! SUPPORT. What the Sprite Renderer does to every pixel and to the collision flag (44_display.md rule R177): its
loops, said once as a formula. -/

namespace Sys2Proof.Machine

@[simp] theorem pixel_blankDisplay (y x : Nat) : pixel blankDisplay y x = false := by
  unfold pixel blankDisplay
  split <;> simp

theorem pixel_outside (d : Display) (y x : Nat) (h : ¬(y < 32 ∧ x < 64)) : pixel d y x = false := by
  simp only [pixel, dif_neg h]

/-- Two displays with the same pixels are equal. -/
theorem display_ext {d e : Display} (h : ∀ y x, y < 32 → x < 64 → pixel d y x = pixel e y x) : d = e := by
  refine Vector.ext fun y hy => Vector.ext fun x hx => ?_
  have := h y x hy hx
  simpa only [pixel, dif_pos (And.intro hy hx)] using this

/-- Inverting one pixel on the display changes that pixel and no other. -/
theorem pixel_togglePixel (d : Display) (y x y' x' : Nat) (hy : y < 32) (hx : x < 64) :
    pixel (togglePixel d y x) y' x' = (pixel d y' x' ^^ decide (y' = y ∧ x' = x)) := by
  by_cases h' : y' < 32 ∧ x' < 64
  · have h : y < 32 ∧ x < 64 := ⟨hy, hx⟩
    simp only [pixel, togglePixel, dif_pos h, dif_pos h', Vector.getElem_set]
    by_cases e1 : y = y'
    · subst e1
      by_cases e2 : x = x'
      · subst e2; simp
      · simp [e2, Ne.symm e2]
    · simp [e1, Ne.symm e1]
  · have hne : ¬(y' = y ∧ x' = x) := by rintro ⟨rfl, rfl⟩; exact h' ⟨hy, hx⟩
    rw [pixel_outside _ _ _ h', pixel_outside _ _ _ h', decide_eq_false hne]
    rfl

/-- Every pixel after the `n` columns of a row byte from column `c` on. -/
theorem pixel_blitColumns (b : Byte) (y x0 n c : Nat) (t : Blit) (y' x' : Nat) (hy : y < 32) :
    pixel (blitColumns b y x0 n c t).disp y' x' =
      (pixel t.disp y' x' ^^
        (decide (y' = y ∧ x0 + c ≤ x' ∧ x' < x0 + c + n ∧ x' < 64) && b.getLsbD (7 - (x' - x0)))) := by
  induction n generalizing c t with
  | zero =>
    have : ¬(y' = y ∧ x0 + c ≤ x' ∧ x' < x0 + c + 0 ∧ x' < 64) := by omega
    rw [blitColumns, decide_eq_false this]; simp
  | succ n ih =>
    rw [blitColumns]
    by_cases hx : displayWidth ≤ x0 + c
    · have hx' : 64 ≤ x0 + c := hx
      have : ¬(y' = y ∧ x0 + c ≤ x' ∧ x' < x0 + c + (n + 1) ∧ x' < 64) := by omega
      rw [if_pos hx, decide_eq_false this]; simp
    · have hx' : x0 + c < 64 := Nat.lt_of_not_le hx
      rw [if_neg hx, ih]
      by_cases hcell : y' = y ∧ x' = x0 + c
      · obtain ⟨rfl, rfl⟩ := hcell
        have h1 : ¬(y' = y' ∧ x0 + (c + 1) ≤ x0 + c ∧ x0 + c < x0 + (c + 1) + n ∧ x0 + c < 64) := by omega
        have h2 : y' = y' ∧ x0 + c ≤ x0 + c ∧ x0 + c < x0 + c + (n + 1) ∧ x0 + c < 64 := by omega
        rw [decide_eq_false h1, decide_eq_true h2, show 7 - (x0 + c - x0) = 7 - c by omega]
        cases hb : b.getLsbD (7 - c)
        · simp
        · simp [blitPixel, pixel_togglePixel _ _ _ _ _ hy hx']
      · have hd : (decide (y' = y ∧ x0 + (c + 1) ≤ x' ∧ x' < x0 + (c + 1) + n ∧ x' < 64))
            = decide (y' = y ∧ x0 + c ≤ x' ∧ x' < x0 + c + (n + 1) ∧ x' < 64) := by
          apply decide_eq_decide.mpr; omega
        have ht : pixel (if b.getLsbD (7 - c) then blitPixel t y (x0 + c) else t).disp y' x'
            = pixel t.disp y' x' := by
          cases b.getLsbD (7 - c)
          · rfl
          · simp [blitPixel, pixel_togglePixel _ _ _ _ _ hy hx', hcell]
        rw [hd, ht]

/-- The collision flag after the `n` columns of a row byte from column `c` on. -/
theorem collision_blitColumns (b : Byte) (y x0 n c : Nat) (t : Blit) (hy : y < 32) :
    (blitColumns b y x0 n c t).collision = true ↔
      t.collision = true ∨
        ∃ x', x0 + c ≤ x' ∧ x' < x0 + c + n ∧ x' < 64 ∧ b.getLsbD (7 - (x' - x0)) = true
          ∧ pixel t.disp y x' = true := by
  induction n generalizing c t with
  | zero =>
    simp only [blitColumns]
    refine ⟨Or.inl, ?_⟩
    rintro (h | ⟨x', h1, h2, -⟩)
    · exact h
    · omega
  | succ n ih =>
    rw [blitColumns]
    by_cases hx : displayWidth ≤ x0 + c
    · have hx' : 64 ≤ x0 + c := hx
      rw [if_pos hx]
      refine ⟨Or.inl, ?_⟩
      rintro (h | ⟨x', h1, h2, h3, -⟩)
      · exact h
      · omega
    · have hx' : x0 + c < 64 := Nat.lt_of_not_le hx
      rw [if_neg hx, ih]
      have hlater : ∀ x', x0 + (c + 1) ≤ x' →
          pixel (if b.getLsbD (7 - c) then blitPixel t y (x0 + c) else t).disp y x' = pixel t.disp y x' := by
        intro x' h
        have hne : ¬(x' = x0 + c) := by omega
        cases b.getLsbD (7 - c)
        · rfl
        · simp [blitPixel, pixel_togglePixel _ _ _ _ _ hy hx', hne]
      have hcol : (if b.getLsbD (7 - c) then blitPixel t y (x0 + c) else t).collision = true ↔
          t.collision = true ∨ (b.getLsbD (7 - c) = true ∧ pixel t.disp y (x0 + c) = true) := by
        cases b.getLsbD (7 - c) <;> simp [blitPixel]
      rw [hcol]
      constructor
      · rintro ((h | ⟨h1, h2⟩) | ⟨x', h1, h2, h3, h4, h5⟩)
        · exact Or.inl h
        · exact Or.inr ⟨x0 + c, by omega, by omega, hx', by rwa [show 7 - (x0 + c - x0) = 7 - c by omega], h2⟩
        · exact Or.inr ⟨x', by omega, by omega, h3, h4, by rwa [hlater x' h1] at h5⟩
      · rintro (h | ⟨x', h1, h2, h3, h4, h5⟩)
        · exact Or.inl (Or.inl h)
        · by_cases e : x' = x0 + c
          · subst e
            exact Or.inl (Or.inr ⟨by rwa [show 7 - (x0 + c - x0) = 7 - c by omega] at h4, h5⟩)
          · exact Or.inr ⟨x', by omega, by omega, h3, h4, by rwa [hlater x' (by omega)]⟩

/-- Every pixel after the `n` rows of a sprite from row `r` on. -/
theorem pixel_blitRows (m : Memory) (base y0 x0 n r : Nat) (t : Blit) (y' x' : Nat) (hy : y0 + r + n ≤ 32) :
    pixel (blitRows m base y0 x0 n r t).disp y' x' =
      (pixel t.disp y' x' ^^
        (decide (y0 + r ≤ y' ∧ y' < y0 + r + n ∧ x0 ≤ x' ∧ x' < x0 + 8 ∧ x' < 64)
          && (m.read (base + (y' - y0))).getLsbD (7 - (x' - x0)))) := by
  induction n generalizing r t with
  | zero =>
    have : ¬(y0 + r ≤ y' ∧ y' < y0 + r + 0 ∧ x0 ≤ x' ∧ x' < x0 + 8 ∧ x' < 64) := by omega
    rw [blitRows, decide_eq_false this]; simp
  | succ n ih =>
    rw [blitRows, ih _ _ (by omega), pixel_blitColumns _ _ _ _ _ _ _ _ (by omega)]
    by_cases e : y' = y0 + r
    · subst e
      have h1 : ¬(y0 + (r + 1) ≤ y0 + r ∧ y0 + r < y0 + (r + 1) + n ∧ x0 ≤ x' ∧ x' < x0 + 8 ∧ x' < 64) := by omega
      have h2 : (decide (y0 + r = y0 + r ∧ x0 + 0 ≤ x' ∧ x' < x0 + 0 + 8 ∧ x' < 64))
          = decide (y0 + r ≤ y0 + r ∧ y0 + r < y0 + r + (n + 1) ∧ x0 ≤ x' ∧ x' < x0 + 8 ∧ x' < 64) := by
        apply decide_eq_decide.mpr; omega
      rw [decide_eq_false h1, h2, show y0 + r - y0 = r by omega]; simp
    · have h1 : ¬(y' = y0 + r ∧ x0 + 0 ≤ x' ∧ x' < x0 + 0 + 8 ∧ x' < 64) := by omega
      have h2 : (decide (y0 + (r + 1) ≤ y' ∧ y' < y0 + (r + 1) + n ∧ x0 ≤ x' ∧ x' < x0 + 8 ∧ x' < 64))
          = decide (y0 + r ≤ y' ∧ y' < y0 + r + (n + 1) ∧ x0 ≤ x' ∧ x' < x0 + 8 ∧ x' < 64) := by
        apply decide_eq_decide.mpr; omega
      rw [decide_eq_false h1, h2]; simp

/-- The collision flag after the `n` rows of a sprite from row `r` on. -/
theorem collision_blitRows (m : Memory) (base y0 x0 n r : Nat) (t : Blit) (hy : y0 + r + n ≤ 32) :
    (blitRows m base y0 x0 n r t).collision = true ↔
      t.collision = true ∨
        ∃ y' x', y0 + r ≤ y' ∧ y' < y0 + r + n ∧ x0 ≤ x' ∧ x' < x0 + 8 ∧ x' < 64
          ∧ (m.read (base + (y' - y0))).getLsbD (7 - (x' - x0)) = true ∧ pixel t.disp y' x' = true := by
  induction n generalizing r t with
  | zero =>
    simp only [blitRows]
    refine ⟨Or.inl, ?_⟩
    rintro (h | ⟨y', x', h1, h2, -⟩)
    · exact h
    · omega
  | succ n ih =>
    rw [blitRows, ih _ _ (by omega), collision_blitColumns _ _ _ _ _ _ (by omega)]
    have hlater : ∀ y' x', y0 + (r + 1) ≤ y' →
        pixel (blitColumns (m.read (base + r)) (y0 + r) x0 8 0 t).disp y' x' = pixel t.disp y' x' := by
      intro y' x' h
      have hne : ¬(y' = y0 + r ∧ x0 + 0 ≤ x' ∧ x' < x0 + 0 + 8 ∧ x' < 64) := by omega
      rw [pixel_blitColumns _ _ _ _ _ _ _ _ (by omega), decide_eq_false hne]; simp
    constructor
    · rintro ((h | ⟨x', h1, h2, h3, h4, h5⟩) | ⟨y', x', h1, h2, h3, h4, h5, h6, h7⟩)
      · exact Or.inl h
      · exact Or.inr ⟨y0 + r, x', by omega, by omega, by omega, by omega, h3,
          by rwa [show y0 + r - y0 = r by omega], h5⟩
      · exact Or.inr ⟨y', x', by omega, by omega, h3, h4, h5, h6, by rwa [hlater y' x' h1] at h7⟩
    · rintro (h | ⟨y', x', h1, h2, h3, h4, h5, h6, h7⟩)
      · exact Or.inl (Or.inl h)
      · by_cases e : y' = y0 + r
        · subst e
          exact Or.inl (Or.inr ⟨x', by omega, by omega, h5,
            by rwa [show y0 + r - y0 = r by omega] at h6, h7⟩)
        · exact Or.inr ⟨y', x', by omega, by omega, h3, h4, h5, h6, by rwa [hlater y' x' (by omega)]⟩

end Sys2Proof.Machine
end

