-- ==== Sys2Proof/Laws/Memory.lean ====
section
/-! SUPPORT. Laws of memory: a read after a write, and that every memory operation keeps the canonical form. -/

namespace Sys2Proof.Machine

/-! ### Reads after writes -/

theorem Memory.read_of_not_listed (m : Memory) (a : Nat) (h : ∀ c ∈ m, c.1 ≠ a) : m.read a = unlistedByte a := by
  induction m with
  | nil => rfl
  | cons c rest ih =>
    obtain ⟨k, b⟩ := c
    have hk : k ≠ a := h (k, b) (by simp)
    simp only [Memory.read, if_neg hk]
    exact ih fun c hc => h c (by simp [hc])

theorem Memory.read_forget_same (m : Memory) (a : Nat) : (m.forget a).read a = unlistedByte a :=
  Memory.read_of_not_listed _ _ fun c hc => by simpa [Memory.forget] using (List.mem_filter.mp hc).2

theorem Memory.read_forget_ne (m : Memory) (a a' : Nat) (h : a' ≠ a) : (m.forget a).read a' = m.read a' := by
  induction m with
  | nil => rfl
  | cons c rest ih =>
    obtain ⟨k, b⟩ := c
    by_cases hk : k = a
    · have hne : a ≠ a' := Ne.symm h
      have hf : Memory.forget ((k, b) :: rest) a = Memory.forget rest a := by simp [Memory.forget, hk]
      rw [hf, ih, Memory.read, hk, if_neg hne]
    · have hf : Memory.forget ((k, b) :: rest) a = (k, b) :: Memory.forget rest a := by simp [Memory.forget, hk]
      rw [hf, Memory.read, Memory.read, ih]

theorem Memory.read_insertCell_ne (m : Memory) (a a' : Nat) (b : Byte) (h : a' ≠ a) :
    (m.insertCell a b).read a' = m.read a' := by
  induction m with
  | nil => simp [Memory.insertCell, Memory.read, Ne.symm h]
  | cons c rest ih =>
    obtain ⟨k, x⟩ := c
    simp only [Memory.insertCell]
    split
    · simp [Memory.read, Ne.symm h]
    · simp [Memory.read, ih]

theorem Memory.read_insertCell_same (m : Memory) (a : Nat) (b : Byte) (h : ∀ c ∈ m, c.1 ≠ a) :
    (m.insertCell a b).read a = b := by
  induction m with
  | nil => simp [Memory.insertCell, Memory.read]
  | cons c rest ih =>
    obtain ⟨k, x⟩ := c
    have hk : k ≠ a := h (k, x) (by simp)
    simp only [Memory.insertCell]
    split
    · simp [Memory.read]
    · simp only [Memory.read, if_neg hk]
      exact ih fun c hc => h c (by simp [hc])

theorem Memory.forget_not_listed (m : Memory) (a : Nat) : ∀ c ∈ m.forget a, c.1 ≠ a := fun c hc => by
  simpa [Memory.forget] using (List.mem_filter.mp hc).2

/-- A read after a write to the same address gives the byte written, in any memory. -/
@[simp] theorem Memory.read_write_same (m : Memory) (a : Nat) (b : Byte) : (m.write a b).read a = b := by
  unfold Memory.write
  split
  · next h => rw [Memory.read_forget_same, h]
  · exact Memory.read_insertCell_same _ _ _ (Memory.forget_not_listed m a)

/-- A write leaves every other address alone, in any memory (20_memory.md rule R70). -/
theorem Memory.read_write_ne (m : Memory) (a a' : Nat) (b : Byte) (h : a' ≠ a) :
    (m.write a b).read a' = m.read a' := by
  unfold Memory.write
  split
  · exact Memory.read_forget_ne m a a' h
  · rw [Memory.read_insertCell_ne _ _ _ _ h, Memory.read_forget_ne m a a' h]

theorem Memory.read_write (m : Memory) (a a' : Nat) (b : Byte) :
    (m.write a b).read a' = if a' = a then b else m.read a' := by
  by_cases h : a' = a
  · subst h; simp
  · simp [h, Memory.read_write_ne _ _ _ _ h]

/-! ### The canonical form -/

theorem Memory.wf_nil : Memory.wf [] := by simp [Memory.wf]

theorem Memory.wf_forget (m : Memory) (a : Nat) (h : m.wf) : (m.forget a).wf :=
  ⟨h.1.filter _, fun c hc => h.2 c (List.mem_filter.mp hc).1⟩

theorem Memory.mem_insertCell (m : Memory) (a : Nat) (b : Byte) (c : Host.Cell) :
    c ∈ m.insertCell a b ↔ c = (a, b) ∨ c ∈ m := by
  induction m with
  | nil => simp [Memory.insertCell]
  | cons d rest ih =>
    obtain ⟨k, x⟩ := d
    simp only [Memory.insertCell]
    split
    · simp
    · simp only [List.mem_cons, ih]; tauto

theorem Memory.sorted_insertCell (m : Memory) (a : Nat) (b : Byte)
    (h : m.Pairwise (fun c d => c.1 < d.1)) (hn : ∀ c ∈ m, c.1 ≠ a) :
    (m.insertCell a b).Pairwise (fun c d => c.1 < d.1) := by
  induction m with
  | nil => simp [Memory.insertCell]
  | cons d rest ih =>
    obtain ⟨k, x⟩ := d
    obtain ⟨hd, hrest⟩ := List.pairwise_cons.mp h
    simp only [Memory.insertCell]
    split
    · next hlt =>
      refine List.pairwise_cons.mpr ⟨fun c hc => ?_, h⟩
      rcases List.mem_cons.mp hc with rfl | hc'
      · exact hlt
      · exact lt_trans hlt (hd c hc')
    · next hlt =>
      have hk : k ≠ a := hn (k, x) (by simp)
      refine List.pairwise_cons.mpr ⟨fun c hc => ?_, ih hrest fun c hc => hn c (by simp [hc])⟩
      rcases (Memory.mem_insertCell rest a b c).mp hc with rfl | hc'
      · show k < a; omega
      · exact hd c hc'

/-- A write inside the address space keeps the canonical form. -/
theorem Memory.wf_write (m : Memory) (a : Nat) (b : Byte) (h : m.wf) (ha : a < memSize) : (m.write a b).wf := by
  have hf := Memory.wf_forget m a h
  unfold Memory.write
  split
  · exact hf
  · next hb =>
    refine ⟨Memory.sorted_insertCell _ _ _ hf.1 (Memory.forget_not_listed m a), fun c hc => ?_⟩
    rcases (Memory.mem_insertCell _ a b c).mp hc with rfl | hc'
    · exact ⟨ha, hb⟩
    · exact hf.2 c hc'

/-- The lowest address a canonical memory lists bounds every other one from below. -/
theorem Memory.read_below (m : Memory) (a : Nat) (h : ∀ c ∈ m, a < c.1) : m.read a = unlistedByte a :=
  Memory.read_of_not_listed m a fun c hc => Nat.ne_of_gt (h c hc)

/-! ### The transfers of FX55 and FX65 -/

/-- What FX55's stores leave at every address (43_index_memory.md rule R164). -/
theorem read_storeRegs (v : Vector Byte 16) (base n : Nat) (h : n ≤ 16) (m : Memory) (a : Nat) :
    (storeRegs v base n h m).read a =
      if hr : base ≤ a ∧ a - base < n then v[a - base]'(by omega) else m.read a := by
  induction n with
  | zero => simp [storeRegs]
  | succ n ih =>
    rw [storeRegs, Memory.read_write, ih (by omega)]
    by_cases ha : a = base + n
    · subst ha
      have hr : base ≤ base + n ∧ base + n - base < n + 1 := by omega
      simp
    · rw [if_neg ha]
      by_cases hr : base ≤ a ∧ a - base < n
      · have hr' : base ≤ a ∧ a - base < n + 1 := by omega
        rw [dif_pos hr, dif_pos hr']
      · have hr' : ¬(base ≤ a ∧ a - base < n + 1) := by omega
        rw [dif_neg hr, dif_neg hr']

theorem wf_storeRegs (v : Vector Byte 16) (base n : Nat) (h : n ≤ 16) (m : Memory) (hm : m.wf)
    (hb : base + n ≤ memSize) : (storeRegs v base n h m).wf := by
  induction n with
  | zero => exact hm
  | succ n ih => exact Memory.wf_write _ _ _ (ih (by omega) (by omega)) (by omega)

/-- What FX65's loads leave in every register (43_index_memory.md rule R165). -/
theorem getElem_loadRegs (m : Memory) (base n : Nat) (h : n ≤ 16) (v : Vector Byte 16) (r : Nat) (hr : r < 16) :
    (loadRegs m base n h v)[r] = if r < n then m.read (base + r) else v[r] := by
  induction n with
  | zero => simp [loadRegs]
  | succ n ih =>
    simp only [loadRegs, Vector.getElem_set, ih (by omega)]
    by_cases hn : n = r
    · subst hn; simp
    · rw [if_neg hn]
      by_cases hlt : r < n
      · simp [hlt, Nat.lt_succ_of_lt hlt]
      · have : ¬ r < n + 1 := by omega
        simp [hlt, this]

/-! ### The loader's memory -/

/-- What the loader's memory holds at every address (70_reset_and_hazards.md rule R270). -/
theorem read_cellsFrom (f : Nat → Byte) (n a a' : Nat) :
    (cellsFrom f n a).read a' = if a ≤ a' ∧ a' < a + n then f a' else unlistedByte a' := by
  induction n generalizing a with
  | zero =>
    have h : ¬(a ≤ a' ∧ a' < a + 0) := by omega
    rw [if_neg h]; rfl
  | succ n ih =>
    have step : (cellsFrom f (n + 1) a).read a' = if a' = a then f a else (cellsFrom f n (a + 1)).read a' := by
      by_cases ha : a' = a
      · subst ha
        by_cases hf : f a' = unlistedByte a'
        · have h : ¬(a' + 1 ≤ a' ∧ a' < a' + 1 + n) := by omega
          rw [cellsFrom, if_pos hf, ih, if_neg h, if_pos rfl, hf]
        · simp [cellsFrom, hf, Memory.read]
      · by_cases hf : f a = unlistedByte a
        · simp [cellsFrom, hf, ha]
        · simp [cellsFrom, hf, Memory.read, ha, Ne.symm ha]
    rw [step, ih]
    by_cases ha : a' = a
    · subst ha; simp
    · by_cases hr : a + 1 ≤ a' ∧ a' < a + 1 + n
      · have hr' : a ≤ a' ∧ a' < a + (n + 1) := by omega
        rw [if_neg ha, if_pos hr, if_pos hr']
      · have hr' : ¬(a ≤ a' ∧ a' < a + (n + 1)) := by omega
        rw [if_neg ha, if_neg hr, if_neg hr']

theorem mem_cellsFrom (f : Nat → Byte) (n a : Nat) :
    ∀ c ∈ cellsFrom f n a, a ≤ c.1 ∧ c.1 < a + n ∧ c.2 ≠ unlistedByte c.1 := by
  induction n generalizing a with
  | zero => simp [cellsFrom]
  | succ n ih =>
    intro c hc
    rw [cellsFrom] at hc
    split at hc
    · obtain ⟨h1, h2, h3⟩ := ih (a + 1) c hc
      exact ⟨by omega, by omega, h3⟩
    · next hf =>
      rcases List.mem_cons.mp hc with rfl | hc'
      · exact ⟨by simp, by simp, hf⟩
      · obtain ⟨h1, h2, h3⟩ := ih (a + 1) c hc'
        exact ⟨by omega, by omega, h3⟩

theorem sorted_cellsFrom (f : Nat → Byte) (n a : Nat) :
    (cellsFrom f n a).Pairwise (fun c d => c.1 < d.1) := by
  induction n generalizing a with
  | zero => simp [cellsFrom]
  | succ n ih =>
    rw [cellsFrom]
    split
    · exact ih (a + 1)
    · refine List.pairwise_cons.mpr ⟨fun c hc => ?_, ih (a + 1)⟩
      have := (mem_cellsFrom f n (a + 1) c hc).1
      show a < c.1
      omega

/-- The loader's memory is canonical. -/
theorem wf_loadImage (rom : List Byte) (font : Vector Byte 80) (fill : Nat → Byte) :
    Memory.wf (loadImage rom font fill) :=
  ⟨sorted_cellsFrom _ _ _, fun c hc => by
    obtain ⟨_, h2, h3⟩ := mem_cellsFrom _ _ _ c hc
    exact ⟨by omega, h3⟩⟩

/-- When the loader builds a machine, and which. -/
theorem loadRom_eq_some_iff (rom : List Byte) (font : Vector Byte 80) (fill : Nat → Byte) (mode : Mode)
    (params : Params) (t : State) :
    loadRom rom font fill mode params = some t ↔
      rom.length ≤ maxRom ∧ 1 ≤ params.stackDepth
        ∧ t = { State.reset with
                mem := loadImage rom font fill
                image := loadImage rom font fill
                mode := mode
                params := params } := by
  unfold loadRom legalParams
  by_cases h : rom.length ≤ maxRom ∧ decide (1 ≤ params.stackDepth) = true
  · rw [if_pos h, Option.some.injEq]
    exact ⟨fun e => ⟨h.1, of_decide_eq_true h.2, e.symm⟩, fun e => e.2.2.symm⟩
  · rw [if_neg h]
    exact ⟨fun e => absurd e (by simp), fun e => absurd ⟨e.1, decide_eq_true e.2.1⟩ h⟩

end Sys2Proof.Machine
end

