-- ==== Sys2Proof/Laws/State.lean ====
section
/-! SUPPORT. What each named update does to each field of State, so that no proof unfolds a record update. -/

namespace Sys2Proof.Machine

/-! ### advance -/

@[simp] theorem advance_mem (s : State) : (advance s).mem = s.mem := rfl
@[simp] theorem advance_v (s : State) : (advance s).v = s.v := rfl
@[simp] theorem advance_index (s : State) : (advance s).index = s.index := rfl
@[simp] theorem advance_pc (s : State) : (advance s).pc = s.pc + 2 := rfl
@[simp] theorem advance_stack (s : State) : (advance s).stack = s.stack := rfl
@[simp] theorem advance_dt (s : State) : (advance s).dt = s.dt := rfl
@[simp] theorem advance_st (s : State) : (advance s).st = s.st := rfl
@[simp] theorem advance_disp (s : State) : (advance s).disp = s.disp := rfl
@[simp] theorem advance_key (s : State) : (advance s).key = s.key := rfl
@[simp] theorem advance_redraw (s : State) : (advance s).redraw = s.redraw := rfl
@[simp] theorem advance_mode (s : State) : (advance s).mode = s.mode := rfl
@[simp] theorem advance_wait (s : State) : (advance s).wait = s.wait := rfl
@[simp] theorem advance_tone (s : State) : (advance s).tone = s.tone := rfl
@[simp] theorem advance_fault (s : State) : (advance s).fault = s.fault := rfl
@[simp] theorem advance_params (s : State) : (advance s).params = s.params := rfl
@[simp] theorem advance_image (s : State) : (advance s).image = s.image := rfl
@[simp] theorem advance_paused (s : State) : (advance s).paused = s.paused := rfl
@[simp] theorem advance_pending (s : State) : (advance s).pending = s.pending := rfl
@[simp] theorem advance_draws (s : State) : (advance s).draws = s.draws := rfl

/-! ### rewind -/

@[simp] theorem rewind_mem (s : State) : (rewind s).mem = s.mem := rfl
@[simp] theorem rewind_v (s : State) : (rewind s).v = s.v := rfl
@[simp] theorem rewind_index (s : State) : (rewind s).index = s.index := rfl
@[simp] theorem rewind_pc (s : State) : (rewind s).pc = s.pc - 2 := rfl
@[simp] theorem rewind_stack (s : State) : (rewind s).stack = s.stack := rfl
@[simp] theorem rewind_dt (s : State) : (rewind s).dt = s.dt := rfl
@[simp] theorem rewind_st (s : State) : (rewind s).st = s.st := rfl
@[simp] theorem rewind_disp (s : State) : (rewind s).disp = s.disp := rfl
@[simp] theorem rewind_key (s : State) : (rewind s).key = s.key := rfl
@[simp] theorem rewind_redraw (s : State) : (rewind s).redraw = s.redraw := rfl
@[simp] theorem rewind_mode (s : State) : (rewind s).mode = s.mode := rfl
@[simp] theorem rewind_wait (s : State) : (rewind s).wait = s.wait := rfl
@[simp] theorem rewind_tone (s : State) : (rewind s).tone = s.tone := rfl
@[simp] theorem rewind_fault (s : State) : (rewind s).fault = s.fault := rfl
@[simp] theorem rewind_params (s : State) : (rewind s).params = s.params := rfl
@[simp] theorem rewind_image (s : State) : (rewind s).image = s.image := rfl
@[simp] theorem rewind_paused (s : State) : (rewind s).paused = s.paused := rfl
@[simp] theorem rewind_pending (s : State) : (rewind s).pending = s.pending := rfl
@[simp] theorem rewind_draws (s : State) : (rewind s).draws = s.draws := rfl

/-! ### setPc -/

@[simp] theorem setPc_mem (s : State) (w : Word) : (setPc s w).mem = s.mem := rfl
@[simp] theorem setPc_v (s : State) (w : Word) : (setPc s w).v = s.v := rfl
@[simp] theorem setPc_index (s : State) (w : Word) : (setPc s w).index = s.index := rfl
@[simp] theorem setPc_pc (s : State) (w : Word) : (setPc s w).pc = w := rfl
@[simp] theorem setPc_stack (s : State) (w : Word) : (setPc s w).stack = s.stack := rfl
@[simp] theorem setPc_dt (s : State) (w : Word) : (setPc s w).dt = s.dt := rfl
@[simp] theorem setPc_st (s : State) (w : Word) : (setPc s w).st = s.st := rfl
@[simp] theorem setPc_disp (s : State) (w : Word) : (setPc s w).disp = s.disp := rfl
@[simp] theorem setPc_key (s : State) (w : Word) : (setPc s w).key = s.key := rfl
@[simp] theorem setPc_redraw (s : State) (w : Word) : (setPc s w).redraw = s.redraw := rfl
@[simp] theorem setPc_mode (s : State) (w : Word) : (setPc s w).mode = s.mode := rfl
@[simp] theorem setPc_wait (s : State) (w : Word) : (setPc s w).wait = s.wait := rfl
@[simp] theorem setPc_tone (s : State) (w : Word) : (setPc s w).tone = s.tone := rfl
@[simp] theorem setPc_fault (s : State) (w : Word) : (setPc s w).fault = s.fault := rfl
@[simp] theorem setPc_params (s : State) (w : Word) : (setPc s w).params = s.params := rfl
@[simp] theorem setPc_image (s : State) (w : Word) : (setPc s w).image = s.image := rfl
@[simp] theorem setPc_paused (s : State) (w : Word) : (setPc s w).paused = s.paused := rfl
@[simp] theorem setPc_pending (s : State) (w : Word) : (setPc s w).pending = s.pending := rfl
@[simp] theorem setPc_draws (s : State) (w : Word) : (setPc s w).draws = s.draws := rfl

/-! ### setIndex -/

@[simp] theorem setIndex_mem (s : State) (w : Word) : (setIndex s w).mem = s.mem := rfl
@[simp] theorem setIndex_v (s : State) (w : Word) : (setIndex s w).v = s.v := rfl
@[simp] theorem setIndex_index (s : State) (w : Word) : (setIndex s w).index = w := rfl
@[simp] theorem setIndex_pc (s : State) (w : Word) : (setIndex s w).pc = s.pc := rfl
@[simp] theorem setIndex_stack (s : State) (w : Word) : (setIndex s w).stack = s.stack := rfl
@[simp] theorem setIndex_dt (s : State) (w : Word) : (setIndex s w).dt = s.dt := rfl
@[simp] theorem setIndex_st (s : State) (w : Word) : (setIndex s w).st = s.st := rfl
@[simp] theorem setIndex_disp (s : State) (w : Word) : (setIndex s w).disp = s.disp := rfl
@[simp] theorem setIndex_key (s : State) (w : Word) : (setIndex s w).key = s.key := rfl
@[simp] theorem setIndex_redraw (s : State) (w : Word) : (setIndex s w).redraw = s.redraw := rfl
@[simp] theorem setIndex_mode (s : State) (w : Word) : (setIndex s w).mode = s.mode := rfl
@[simp] theorem setIndex_wait (s : State) (w : Word) : (setIndex s w).wait = s.wait := rfl
@[simp] theorem setIndex_tone (s : State) (w : Word) : (setIndex s w).tone = s.tone := rfl
@[simp] theorem setIndex_fault (s : State) (w : Word) : (setIndex s w).fault = s.fault := rfl
@[simp] theorem setIndex_params (s : State) (w : Word) : (setIndex s w).params = s.params := rfl
@[simp] theorem setIndex_image (s : State) (w : Word) : (setIndex s w).image = s.image := rfl
@[simp] theorem setIndex_paused (s : State) (w : Word) : (setIndex s w).paused = s.paused := rfl
@[simp] theorem setIndex_pending (s : State) (w : Word) : (setIndex s w).pending = s.pending := rfl
@[simp] theorem setIndex_draws (s : State) (w : Word) : (setIndex s w).draws = s.draws := rfl

/-! ### setV -/

@[simp] theorem setV_mem (s : State) (x : Reg) (b : Byte) : (setV s x b).mem = s.mem := rfl
@[simp] theorem setV_v (s : State) (x : Reg) (b : Byte) : (setV s x b).v = s.v.set x.val b := rfl
@[simp] theorem setV_index (s : State) (x : Reg) (b : Byte) : (setV s x b).index = s.index := rfl
@[simp] theorem setV_pc (s : State) (x : Reg) (b : Byte) : (setV s x b).pc = s.pc := rfl
@[simp] theorem setV_stack (s : State) (x : Reg) (b : Byte) : (setV s x b).stack = s.stack := rfl
@[simp] theorem setV_dt (s : State) (x : Reg) (b : Byte) : (setV s x b).dt = s.dt := rfl
@[simp] theorem setV_st (s : State) (x : Reg) (b : Byte) : (setV s x b).st = s.st := rfl
@[simp] theorem setV_disp (s : State) (x : Reg) (b : Byte) : (setV s x b).disp = s.disp := rfl
@[simp] theorem setV_key (s : State) (x : Reg) (b : Byte) : (setV s x b).key = s.key := rfl
@[simp] theorem setV_redraw (s : State) (x : Reg) (b : Byte) : (setV s x b).redraw = s.redraw := rfl
@[simp] theorem setV_mode (s : State) (x : Reg) (b : Byte) : (setV s x b).mode = s.mode := rfl
@[simp] theorem setV_wait (s : State) (x : Reg) (b : Byte) : (setV s x b).wait = s.wait := rfl
@[simp] theorem setV_tone (s : State) (x : Reg) (b : Byte) : (setV s x b).tone = s.tone := rfl
@[simp] theorem setV_fault (s : State) (x : Reg) (b : Byte) : (setV s x b).fault = s.fault := rfl
@[simp] theorem setV_params (s : State) (x : Reg) (b : Byte) : (setV s x b).params = s.params := rfl
@[simp] theorem setV_image (s : State) (x : Reg) (b : Byte) : (setV s x b).image = s.image := rfl
@[simp] theorem setV_paused (s : State) (x : Reg) (b : Byte) : (setV s x b).paused = s.paused := rfl
@[simp] theorem setV_pending (s : State) (x : Reg) (b : Byte) : (setV s x b).pending = s.pending := rfl
@[simp] theorem setV_draws (s : State) (x : Reg) (b : Byte) : (setV s x b).draws = s.draws := rfl

/-! ### push -/

@[simp] theorem push_mem (s : State) (w : Word) : (push s w).mem = s.mem := rfl
@[simp] theorem push_v (s : State) (w : Word) : (push s w).v = s.v := rfl
@[simp] theorem push_index (s : State) (w : Word) : (push s w).index = s.index := rfl
@[simp] theorem push_pc (s : State) (w : Word) : (push s w).pc = s.pc := rfl
@[simp] theorem push_stack (s : State) (w : Word) : (push s w).stack = s.stack ++ [w] := rfl
@[simp] theorem push_dt (s : State) (w : Word) : (push s w).dt = s.dt := rfl
@[simp] theorem push_st (s : State) (w : Word) : (push s w).st = s.st := rfl
@[simp] theorem push_disp (s : State) (w : Word) : (push s w).disp = s.disp := rfl
@[simp] theorem push_key (s : State) (w : Word) : (push s w).key = s.key := rfl
@[simp] theorem push_redraw (s : State) (w : Word) : (push s w).redraw = s.redraw := rfl
@[simp] theorem push_mode (s : State) (w : Word) : (push s w).mode = s.mode := rfl
@[simp] theorem push_wait (s : State) (w : Word) : (push s w).wait = s.wait := rfl
@[simp] theorem push_tone (s : State) (w : Word) : (push s w).tone = s.tone := rfl
@[simp] theorem push_fault (s : State) (w : Word) : (push s w).fault = s.fault := rfl
@[simp] theorem push_params (s : State) (w : Word) : (push s w).params = s.params := rfl
@[simp] theorem push_image (s : State) (w : Word) : (push s w).image = s.image := rfl
@[simp] theorem push_paused (s : State) (w : Word) : (push s w).paused = s.paused := rfl
@[simp] theorem push_pending (s : State) (w : Word) : (push s w).pending = s.pending := rfl
@[simp] theorem push_draws (s : State) (w : Word) : (push s w).draws = s.draws := rfl

/-! ### storeByte -/

@[simp] theorem storeByte_mem (s : State) (a : Nat) (b : Byte) : (storeByte s a b).mem = s.mem.write a b := rfl
@[simp] theorem storeByte_v (s : State) (a : Nat) (b : Byte) : (storeByte s a b).v = s.v := rfl
@[simp] theorem storeByte_index (s : State) (a : Nat) (b : Byte) : (storeByte s a b).index = s.index := rfl
@[simp] theorem storeByte_pc (s : State) (a : Nat) (b : Byte) : (storeByte s a b).pc = s.pc := rfl
@[simp] theorem storeByte_stack (s : State) (a : Nat) (b : Byte) : (storeByte s a b).stack = s.stack := rfl
@[simp] theorem storeByte_dt (s : State) (a : Nat) (b : Byte) : (storeByte s a b).dt = s.dt := rfl
@[simp] theorem storeByte_st (s : State) (a : Nat) (b : Byte) : (storeByte s a b).st = s.st := rfl
@[simp] theorem storeByte_disp (s : State) (a : Nat) (b : Byte) : (storeByte s a b).disp = s.disp := rfl
@[simp] theorem storeByte_key (s : State) (a : Nat) (b : Byte) : (storeByte s a b).key = s.key := rfl
@[simp] theorem storeByte_redraw (s : State) (a : Nat) (b : Byte) : (storeByte s a b).redraw = s.redraw := rfl
@[simp] theorem storeByte_mode (s : State) (a : Nat) (b : Byte) : (storeByte s a b).mode = s.mode := rfl
@[simp] theorem storeByte_wait (s : State) (a : Nat) (b : Byte) : (storeByte s a b).wait = s.wait := rfl
@[simp] theorem storeByte_tone (s : State) (a : Nat) (b : Byte) : (storeByte s a b).tone = s.tone := rfl
@[simp] theorem storeByte_fault (s : State) (a : Nat) (b : Byte) : (storeByte s a b).fault = s.fault := rfl
@[simp] theorem storeByte_params (s : State) (a : Nat) (b : Byte) : (storeByte s a b).params = s.params := rfl
@[simp] theorem storeByte_image (s : State) (a : Nat) (b : Byte) : (storeByte s a b).image = s.image := rfl
@[simp] theorem storeByte_paused (s : State) (a : Nat) (b : Byte) : (storeByte s a b).paused = s.paused := rfl
@[simp] theorem storeByte_pending (s : State) (a : Nat) (b : Byte) : (storeByte s a b).pending = s.pending := rfl
@[simp] theorem storeByte_draws (s : State) (a : Nat) (b : Byte) : (storeByte s a b).draws = s.draws := rfl

/-! ### raise -/

@[simp] theorem raise_mem (s : State) (c : FaultCause) (o : Option Word) : (raise s c o).mem = s.mem := rfl
@[simp] theorem raise_v (s : State) (c : FaultCause) (o : Option Word) : (raise s c o).v = s.v := rfl
@[simp] theorem raise_index (s : State) (c : FaultCause) (o : Option Word) : (raise s c o).index = s.index := rfl
@[simp] theorem raise_pc (s : State) (c : FaultCause) (o : Option Word) : (raise s c o).pc = s.pc := rfl
@[simp] theorem raise_stack (s : State) (c : FaultCause) (o : Option Word) : (raise s c o).stack = s.stack := rfl
@[simp] theorem raise_dt (s : State) (c : FaultCause) (o : Option Word) : (raise s c o).dt = s.dt := rfl
@[simp] theorem raise_st (s : State) (c : FaultCause) (o : Option Word) : (raise s c o).st = s.st := rfl
@[simp] theorem raise_disp (s : State) (c : FaultCause) (o : Option Word) : (raise s c o).disp = s.disp := rfl
@[simp] theorem raise_key (s : State) (c : FaultCause) (o : Option Word) : (raise s c o).key = s.key := rfl
@[simp] theorem raise_redraw (s : State) (c : FaultCause) (o : Option Word) : (raise s c o).redraw = s.redraw := rfl
@[simp] theorem raise_mode (s : State) (c : FaultCause) (o : Option Word) : (raise s c o).mode = s.mode := rfl
@[simp] theorem raise_wait (s : State) (c : FaultCause) (o : Option Word) : (raise s c o).wait = s.wait := rfl
@[simp] theorem raise_tone (s : State) (c : FaultCause) (o : Option Word) : (raise s c o).tone = s.tone := rfl
@[simp] theorem raise_fault (s : State) (c : FaultCause) (o : Option Word) : (raise s c o).fault = some { cause := c, addr := s.pc, opcode := o } := rfl
@[simp] theorem raise_params (s : State) (c : FaultCause) (o : Option Word) : (raise s c o).params = s.params := rfl
@[simp] theorem raise_image (s : State) (c : FaultCause) (o : Option Word) : (raise s c o).image = s.image := rfl
@[simp] theorem raise_paused (s : State) (c : FaultCause) (o : Option Word) : (raise s c o).paused = s.paused := rfl
@[simp] theorem raise_pending (s : State) (c : FaultCause) (o : Option Word) : (raise s c o).pending = s.pending := rfl
@[simp] theorem raise_draws (s : State) (c : FaultCause) (o : Option Word) : (raise s c o).draws = s.draws := rfl

/-! ### raiseAt -/

@[simp] theorem raiseAt_mem (i : Instr) (s : State) (c : FaultCause) : (raiseAt i s c).mem = s.mem := rfl
@[simp] theorem raiseAt_v (i : Instr) (s : State) (c : FaultCause) : (raiseAt i s c).v = s.v := rfl
@[simp] theorem raiseAt_index (i : Instr) (s : State) (c : FaultCause) : (raiseAt i s c).index = s.index := rfl
@[simp] theorem raiseAt_pc (i : Instr) (s : State) (c : FaultCause) : (raiseAt i s c).pc = s.pc := rfl
@[simp] theorem raiseAt_stack (i : Instr) (s : State) (c : FaultCause) : (raiseAt i s c).stack = s.stack := rfl
@[simp] theorem raiseAt_dt (i : Instr) (s : State) (c : FaultCause) : (raiseAt i s c).dt = s.dt := rfl
@[simp] theorem raiseAt_st (i : Instr) (s : State) (c : FaultCause) : (raiseAt i s c).st = s.st := rfl
@[simp] theorem raiseAt_disp (i : Instr) (s : State) (c : FaultCause) : (raiseAt i s c).disp = s.disp := rfl
@[simp] theorem raiseAt_key (i : Instr) (s : State) (c : FaultCause) : (raiseAt i s c).key = s.key := rfl
@[simp] theorem raiseAt_redraw (i : Instr) (s : State) (c : FaultCause) : (raiseAt i s c).redraw = s.redraw := rfl
@[simp] theorem raiseAt_mode (i : Instr) (s : State) (c : FaultCause) : (raiseAt i s c).mode = s.mode := rfl
@[simp] theorem raiseAt_wait (i : Instr) (s : State) (c : FaultCause) : (raiseAt i s c).wait = s.wait := rfl
@[simp] theorem raiseAt_tone (i : Instr) (s : State) (c : FaultCause) : (raiseAt i s c).tone = s.tone := rfl
@[simp] theorem raiseAt_fault (i : Instr) (s : State) (c : FaultCause) : (raiseAt i s c).fault = some { cause := c, addr := s.pc, opcode := some (encode i) } := rfl
@[simp] theorem raiseAt_params (i : Instr) (s : State) (c : FaultCause) : (raiseAt i s c).params = s.params := rfl
@[simp] theorem raiseAt_image (i : Instr) (s : State) (c : FaultCause) : (raiseAt i s c).image = s.image := rfl
@[simp] theorem raiseAt_paused (i : Instr) (s : State) (c : FaultCause) : (raiseAt i s c).paused = s.paused := rfl
@[simp] theorem raiseAt_pending (i : Instr) (s : State) (c : FaultCause) : (raiseAt i s c).pending = s.pending := rfl
@[simp] theorem raiseAt_draws (i : Instr) (s : State) (c : FaultCause) : (raiseAt i s c).draws = s.draws := rfl

/-! ### setVF -/

@[simp] theorem setVF_mem (s : State) (b : Bool) : (setVF s b).mem = s.mem := rfl
@[simp] theorem setVF_v (s : State) (b : Bool) : (setVF s b).v = s.v.set 15 (flagByte b) := rfl
@[simp] theorem setVF_index (s : State) (b : Bool) : (setVF s b).index = s.index := rfl
@[simp] theorem setVF_pc (s : State) (b : Bool) : (setVF s b).pc = s.pc := rfl
@[simp] theorem setVF_stack (s : State) (b : Bool) : (setVF s b).stack = s.stack := rfl
@[simp] theorem setVF_dt (s : State) (b : Bool) : (setVF s b).dt = s.dt := rfl
@[simp] theorem setVF_st (s : State) (b : Bool) : (setVF s b).st = s.st := rfl
@[simp] theorem setVF_disp (s : State) (b : Bool) : (setVF s b).disp = s.disp := rfl
@[simp] theorem setVF_key (s : State) (b : Bool) : (setVF s b).key = s.key := rfl
@[simp] theorem setVF_redraw (s : State) (b : Bool) : (setVF s b).redraw = s.redraw := rfl
@[simp] theorem setVF_mode (s : State) (b : Bool) : (setVF s b).mode = s.mode := rfl
@[simp] theorem setVF_wait (s : State) (b : Bool) : (setVF s b).wait = s.wait := rfl
@[simp] theorem setVF_tone (s : State) (b : Bool) : (setVF s b).tone = s.tone := rfl
@[simp] theorem setVF_fault (s : State) (b : Bool) : (setVF s b).fault = s.fault := rfl
@[simp] theorem setVF_params (s : State) (b : Bool) : (setVF s b).params = s.params := rfl
@[simp] theorem setVF_image (s : State) (b : Bool) : (setVF s b).image = s.image := rfl
@[simp] theorem setVF_paused (s : State) (b : Bool) : (setVF s b).paused = s.paused := rfl
@[simp] theorem setVF_pending (s : State) (b : Bool) : (setVF s b).pending = s.pending := rfl
@[simp] theorem setVF_draws (s : State) (b : Bool) : (setVF s b).draws = s.draws := rfl

/-! ### setVThenVF -/

@[simp] theorem setVThenVF_mem (s : State) (x : Reg) (b : Byte) (f : Bool) : (setVThenVF s x b f).mem = s.mem := rfl
@[simp] theorem setVThenVF_v (s : State) (x : Reg) (b : Byte) (f : Bool) : (setVThenVF s x b f).v = (s.v.set x.val b).set 15 (flagByte f) := rfl
@[simp] theorem setVThenVF_index (s : State) (x : Reg) (b : Byte) (f : Bool) : (setVThenVF s x b f).index = s.index := rfl
@[simp] theorem setVThenVF_pc (s : State) (x : Reg) (b : Byte) (f : Bool) : (setVThenVF s x b f).pc = s.pc := rfl
@[simp] theorem setVThenVF_stack (s : State) (x : Reg) (b : Byte) (f : Bool) : (setVThenVF s x b f).stack = s.stack := rfl
@[simp] theorem setVThenVF_dt (s : State) (x : Reg) (b : Byte) (f : Bool) : (setVThenVF s x b f).dt = s.dt := rfl
@[simp] theorem setVThenVF_st (s : State) (x : Reg) (b : Byte) (f : Bool) : (setVThenVF s x b f).st = s.st := rfl
@[simp] theorem setVThenVF_disp (s : State) (x : Reg) (b : Byte) (f : Bool) : (setVThenVF s x b f).disp = s.disp := rfl
@[simp] theorem setVThenVF_key (s : State) (x : Reg) (b : Byte) (f : Bool) : (setVThenVF s x b f).key = s.key := rfl
@[simp] theorem setVThenVF_redraw (s : State) (x : Reg) (b : Byte) (f : Bool) : (setVThenVF s x b f).redraw = s.redraw := rfl
@[simp] theorem setVThenVF_mode (s : State) (x : Reg) (b : Byte) (f : Bool) : (setVThenVF s x b f).mode = s.mode := rfl
@[simp] theorem setVThenVF_wait (s : State) (x : Reg) (b : Byte) (f : Bool) : (setVThenVF s x b f).wait = s.wait := rfl
@[simp] theorem setVThenVF_tone (s : State) (x : Reg) (b : Byte) (f : Bool) : (setVThenVF s x b f).tone = s.tone := rfl
@[simp] theorem setVThenVF_fault (s : State) (x : Reg) (b : Byte) (f : Bool) : (setVThenVF s x b f).fault = s.fault := rfl
@[simp] theorem setVThenVF_params (s : State) (x : Reg) (b : Byte) (f : Bool) : (setVThenVF s x b f).params = s.params := rfl
@[simp] theorem setVThenVF_image (s : State) (x : Reg) (b : Byte) (f : Bool) : (setVThenVF s x b f).image = s.image := rfl
@[simp] theorem setVThenVF_paused (s : State) (x : Reg) (b : Byte) (f : Bool) : (setVThenVF s x b f).paused = s.paused := rfl
@[simp] theorem setVThenVF_pending (s : State) (x : Reg) (b : Byte) (f : Bool) : (setVThenVF s x b f).pending = s.pending := rfl
@[simp] theorem setVThenVF_draws (s : State) (x : Reg) (b : Byte) (f : Bool) : (setVThenVF s x b f).draws = s.draws := rfl

/-! ### tick -/

@[simp] theorem tick_mem (s : State) : (tick s).mem = s.mem := rfl
@[simp] theorem tick_v (s : State) : (tick s).v = s.v := rfl
@[simp] theorem tick_index (s : State) : (tick s).index = s.index := rfl
@[simp] theorem tick_pc (s : State) : (tick s).pc = s.pc := rfl
@[simp] theorem tick_stack (s : State) : (tick s).stack = s.stack := rfl
@[simp] theorem tick_dt (s : State) : (tick s).dt = countDown s.dt := rfl
@[simp] theorem tick_st (s : State) : (tick s).st = countDown s.st := rfl
@[simp] theorem tick_disp (s : State) : (tick s).disp = s.disp := rfl
@[simp] theorem tick_key (s : State) : (tick s).key = s.key := rfl
@[simp] theorem tick_redraw (s : State) : (tick s).redraw = s.redraw := rfl
@[simp] theorem tick_mode (s : State) : (tick s).mode = s.mode := rfl
@[simp] theorem tick_wait (s : State) : (tick s).wait = s.wait := rfl
@[simp] theorem tick_tone (s : State) : (tick s).tone = gate s.params.audioGate s.st (countDown s.st) := rfl
@[simp] theorem tick_fault (s : State) : (tick s).fault = s.fault := rfl
@[simp] theorem tick_params (s : State) : (tick s).params = s.params := rfl
@[simp] theorem tick_image (s : State) : (tick s).image = s.image := rfl
@[simp] theorem tick_paused (s : State) : (tick s).paused = s.paused := rfl
@[simp] theorem tick_pending (s : State) : (tick s).pending = s.pending := rfl
@[simp] theorem tick_draws (s : State) : (tick s).draws = s.draws := rfl

/-! ### legacyClearVF: only `v` may change -/

@[simp] theorem legacyClearVF_mem (s : State) : (legacyClearVF s).mem = s.mem := by
  unfold legacyClearVF; split <;> rfl
@[simp] theorem legacyClearVF_index (s : State) : (legacyClearVF s).index = s.index := by
  unfold legacyClearVF; split <;> rfl
@[simp] theorem legacyClearVF_pc (s : State) : (legacyClearVF s).pc = s.pc := by
  unfold legacyClearVF; split <;> rfl
@[simp] theorem legacyClearVF_stack (s : State) : (legacyClearVF s).stack = s.stack := by
  unfold legacyClearVF; split <;> rfl
@[simp] theorem legacyClearVF_dt (s : State) : (legacyClearVF s).dt = s.dt := by
  unfold legacyClearVF; split <;> rfl
@[simp] theorem legacyClearVF_st (s : State) : (legacyClearVF s).st = s.st := by
  unfold legacyClearVF; split <;> rfl
@[simp] theorem legacyClearVF_disp (s : State) : (legacyClearVF s).disp = s.disp := by
  unfold legacyClearVF; split <;> rfl
@[simp] theorem legacyClearVF_key (s : State) : (legacyClearVF s).key = s.key := by
  unfold legacyClearVF; split <;> rfl
@[simp] theorem legacyClearVF_redraw (s : State) : (legacyClearVF s).redraw = s.redraw := by
  unfold legacyClearVF; split <;> rfl
@[simp] theorem legacyClearVF_mode (s : State) : (legacyClearVF s).mode = s.mode := by
  unfold legacyClearVF; split <;> rfl
@[simp] theorem legacyClearVF_wait (s : State) : (legacyClearVF s).wait = s.wait := by
  unfold legacyClearVF; split <;> rfl
@[simp] theorem legacyClearVF_tone (s : State) : (legacyClearVF s).tone = s.tone := by
  unfold legacyClearVF; split <;> rfl
@[simp] theorem legacyClearVF_fault (s : State) : (legacyClearVF s).fault = s.fault := by
  unfold legacyClearVF; split <;> rfl
@[simp] theorem legacyClearVF_params (s : State) : (legacyClearVF s).params = s.params := by
  unfold legacyClearVF; split <;> rfl
@[simp] theorem legacyClearVF_image (s : State) : (legacyClearVF s).image = s.image := by
  unfold legacyClearVF; split <;> rfl
@[simp] theorem legacyClearVF_paused (s : State) : (legacyClearVF s).paused = s.paused := by
  unfold legacyClearVF; split <;> rfl
@[simp] theorem legacyClearVF_pending (s : State) : (legacyClearVF s).pending = s.pending := by
  unfold legacyClearVF; split <;> rfl
@[simp] theorem legacyClearVF_draws (s : State) : (legacyClearVF s).draws = s.draws := by
  unfold legacyClearVF; split <;> rfl

/-! ### skipIf: only `pc` changes -/

@[simp] theorem skipIf_mem (s : State) (c : Bool) : (skipIf s c).mem = s.mem := by cases c <;> rfl
@[simp] theorem skipIf_v (s : State) (c : Bool) : (skipIf s c).v = s.v := by cases c <;> rfl
@[simp] theorem skipIf_index (s : State) (c : Bool) : (skipIf s c).index = s.index := by cases c <;> rfl
@[simp] theorem skipIf_pc (s : State) (c : Bool) : (skipIf s c).pc = if c then s.pc + 2 + 2 else s.pc + 2 := by
  cases c <;> rfl
@[simp] theorem skipIf_stack (s : State) (c : Bool) : (skipIf s c).stack = s.stack := by cases c <;> rfl
@[simp] theorem skipIf_dt (s : State) (c : Bool) : (skipIf s c).dt = s.dt := by cases c <;> rfl
@[simp] theorem skipIf_st (s : State) (c : Bool) : (skipIf s c).st = s.st := by cases c <;> rfl
@[simp] theorem skipIf_disp (s : State) (c : Bool) : (skipIf s c).disp = s.disp := by cases c <;> rfl
@[simp] theorem skipIf_key (s : State) (c : Bool) : (skipIf s c).key = s.key := by cases c <;> rfl
@[simp] theorem skipIf_redraw (s : State) (c : Bool) : (skipIf s c).redraw = s.redraw := by cases c <;> rfl
@[simp] theorem skipIf_mode (s : State) (c : Bool) : (skipIf s c).mode = s.mode := by cases c <;> rfl
@[simp] theorem skipIf_wait (s : State) (c : Bool) : (skipIf s c).wait = s.wait := by cases c <;> rfl
@[simp] theorem skipIf_tone (s : State) (c : Bool) : (skipIf s c).tone = s.tone := by cases c <;> rfl
@[simp] theorem skipIf_fault (s : State) (c : Bool) : (skipIf s c).fault = s.fault := by cases c <;> rfl
@[simp] theorem skipIf_params (s : State) (c : Bool) : (skipIf s c).params = s.params := by cases c <;> rfl
@[simp] theorem skipIf_image (s : State) (c : Bool) : (skipIf s c).image = s.image := by cases c <;> rfl
@[simp] theorem skipIf_paused (s : State) (c : Bool) : (skipIf s c).paused = s.paused := by cases c <;> rfl
@[simp] theorem skipIf_pending (s : State) (c : Bool) : (skipIf s c).pending = s.pending := by cases c <;> rfl
@[simp] theorem skipIf_draws (s : State) (c : Bool) : (skipIf s c).draws = s.draws := by cases c <;> rfl

/-! ### Reading a register after an update -/

@[simp] theorem getV_setV_same (s : State) (x : Reg) (b : Byte) : getV (setV s x b) x = b := by
  simp [getV, setV]

theorem getV_setV_ne (s : State) (x r : Reg) (b : Byte) (h : r ≠ x) : getV (setV s x b) r = getV s r := by
  have h' : x.val ≠ r.val := fun e => h (Fin.ext e.symm)
  simp [getV, setV, h']

/-- One read after one write, both cases. -/
theorem getV_setV (s : State) (x r : Reg) (b : Byte) : getV (setV s x b) r = if r = x then b else getV s r := by
  by_cases h : r = x
  · subst h; simp
  · simp [getV_setV_ne _ _ _ _ h, h]

/-- Registers are read through `v` alone. -/
theorem getV_congr {s t : State} (h : s.v = t.v) (r : Reg) : getV s r = getV t r := by simp [getV, h]

@[simp] theorem getV_advance (s : State) (r : Reg) : getV (advance s) r = getV s r := rfl
@[simp] theorem getV_rewind (s : State) (r : Reg) : getV (rewind s) r = getV s r := rfl
@[simp] theorem getV_raise (s : State) (c : FaultCause) (o : Option Word) (r : Reg) :
    getV (raise s c o) r = getV s r := rfl

theorem getV_setVF (s : State) (b : Bool) (r : Reg) :
    getV (setVF s b) r = if r = vf then flagByte b else getV s r := getV_setV s vf r _

/-- The flag is what remains in VF (00_scope.md rule R13). -/
theorem getV_setVThenVF (s : State) (x r : Reg) (b : Byte) (f : Bool) :
    getV (setVThenVF s x b f) r = if r = vf then flagByte f else if r = x then b else getV s r := by
  rw [setVThenVF, getV_setVF, getV_setV]

theorem getV_legacyClearVF (s : State) (r : Reg) :
    getV (legacyClearVF s) r = if s.mode = .legacy ∧ r = vf then 0 else getV s r := by
  unfold legacyClearVF
  split
  · next h => simp [h, getV_setV]
  · next h => simp [h]

end Sys2Proof.Machine
end

