-- ==== Sys2Proof/Laws/Ops.lean ====
section
/-! SUPPORT. What each shared operation can do, said once: the fetch, the range check, the keypad skip, the rewind. -/

namespace Sys2Proof.Machine

/-! ### The fetch -/

/-- A fetch whose two bytes are in memory reads them big-endian (20_memory.md rule R64). -/
theorem fetch_inside (s : State) (h : s.pc.toNat + 1 < memSize) :
    fetch s = .ok (wordOfBytes (s.mem.read s.pc.toNat) (s.mem.read (s.pc.toNat + 1))) := by
  have h0 : s.pc.toNat < memSize := by omega
  simp [fetch, memRead2, memRead, h0, h]

/-- A fetch outside memory reports the lowest out-of-range address (60_exceptions.md rule R223). -/
theorem fetch_outside (s : State) (h : memSize ≤ s.pc.toNat + 1) : fetch s = .error (max s.pc.toNat memSize) := by
  by_cases h0 : s.pc.toNat < memSize
  · have h1 : ¬ s.pc.toNat + 1 < memSize := by omega
    have e : max s.pc.toNat memSize = s.pc.toNat + 1 := by omega
    simp [fetch, memRead2, memRead, h0, h1, e]
  · have e : max s.pc.toNat memSize = s.pc.toNat := by omega
    simp [fetch, memRead2, memRead, h0, e]

theorem fetch_ok_iff (s : State) (w : Word) :
    fetch s = .ok w ↔
      s.pc.toNat + 1 < memSize ∧ w = wordOfBytes (s.mem.read s.pc.toNat) (s.mem.read (s.pc.toNat + 1)) := by
  by_cases h : s.pc.toNat + 1 < memSize
  · rw [fetch_inside s h]
    constructor
    · intro e; cases e; exact ⟨h, rfl⟩
    · rintro ⟨-, rfl⟩; rfl
  · rw [fetch_outside s (by omega)]
    constructor
    · intro e; cases e
    · rintro ⟨h', -⟩; exact absurd h' h

/-- The fetch reads `mem` and `pc` alone. -/
theorem fetch_congr {s t : State} (hm : s.mem = t.mem) (hp : s.pc = t.pc) : fetch s = fetch t := by
  simp [fetch, memRead2, memRead, hm, hp]

/-! ### The range check -/

theorem rangeFault_none_iff (base count : Nat) : rangeFault base count = none ↔ count = 0 ∨ base + count ≤ memSize := by
  unfold rangeFault
  split <;> simp_all

theorem rangeFault_of_outside (base count : Nat) (h : ¬(count = 0 ∨ base + count ≤ memSize)) :
    rangeFault base count = some (max base memSize) := by
  simp [rangeFault, h]

theorem withRange_inside (i : Instr) (s : State) (base count : Nat) (run : State)
    (h : count = 0 ∨ base + count ≤ memSize) : withRange i s base count run = .next run := by
  simp [withRange, (rangeFault_none_iff base count).mpr h]

theorem withRange_outside (i : Instr) (s : State) (base count : Nat) (run : State)
    (h : ¬(count = 0 ∨ base + count ≤ memSize)) :
    withRange i s base count run = .next (raiseAt i s (.memoryBounds (max base memSize))) := by
  simp [withRange, rangeFault_of_outside base count h]

/-- All a ranged instruction can do: run inside memory, or take the fault. -/
theorem withRange_cases {i : Instr} {s t : State} {base count : Nat} {run : State}
    (h : withRange i s base count run = .next t) :
    ((count = 0 ∨ base + count ≤ memSize) ∧ t = run)
      ∨ (¬(count = 0 ∨ base + count ≤ memSize) ∧ t = raiseAt i s (.memoryBounds (max base memSize))) := by
  by_cases hr : count = 0 ∨ base + count ≤ memSize
  · rw [withRange_inside _ _ _ _ _ hr] at h; cases h; exact Or.inl ⟨hr, rfl⟩
  · rw [withRange_outside _ _ _ _ _ hr] at h; cases h; exact Or.inr ⟨hr, rfl⟩

/-! ### The keypad skip and the rewind -/

/-- All a keypad skip can do: advance by one or two instructions, or take the fault. -/
theorem skipOnKey_cases {i : Instr} {s t : State} {vx : Byte} {level : Bool}
    (h : skipOnKey i s vx level = .next t) : (∃ c, t = skipIf s c) ∨ t = raiseAt i s (.keyIndex vx) := by
  unfold skipOnKey at h
  split at h
  · cases h; exact Or.inl ⟨_, rfl⟩
  · cases h; exact Or.inr rfl

/-- The rewind undoes the advance (45_keypad_timer_random.md rule R193(f)). -/
@[simp] theorem rewind_advance (s : State) : rewind (advance s) = s := by
  simp [rewind, advance]

/-- `legacyClearVF` by mode. -/
theorem legacyClearVF_legacy (s : State) (h : s.mode = .legacy) : legacyClearVF s = setV s vf 0 := by
  simp [legacyClearVF, h]

theorem legacyClearVF_modern (s : State) (h : s.mode = .modern) : legacyClearVF s = s := by
  simp [legacyClearVF, h]

/-! ### Arithmetic of the flags and results, as numbers -/

theorem toNat_wrapAdd (a b : Byte) : (wrapAdd a b).toNat = (a.toNat + b.toNat) % 256 := by
  simp [wrapAdd]

theorem toNat_wrapSub (a b : Byte) : (wrapSub a b).toNat = (a.toNat + 256 - b.toNat) % 256 := by
  have := a.isLt; have := b.isLt
  simp only [wrapSub, BitVec.toNat_ofInt]
  omega

theorem toNat_shiftRightOne (b : Byte) : (shiftRightOne b).toNat = b.toNat / 2 := by
  have := b.isLt
  simp only [shiftRightOne, BitVec.toNat_ofNat]; omega

theorem toNat_shiftLeftOne (b : Byte) : (shiftLeftOne b).toNat = b.toNat * 2 % 256 := by
  simp [shiftLeftOne]

theorem lowBit_eq (b : Byte) : lowBit b = decide (b.toNat % 2 = 1) := by
  simp [lowBit, BitVec.getLsbD, Nat.testBit_zero]

theorem highBit_eq (b : Byte) : highBit b = decide (128 ≤ b.toNat) := by
  have := b.isLt
  simp only [highBit, BitVec.getLsbD, Nat.testBit_eq_decide_div_mod_eq]
  apply decide_eq_decide.mpr; omega

theorem toNat_addressOf (nnn : BitVec 12) : (addressOf nnn).toNat = nnn.toNat := by
  have := nnn.isLt
  simp only [addressOf, BitVec.toNat_setWidth]; omega

theorem toNat_widen (b : Byte) : (widen b).toNat = b.toNat := by
  have := b.isLt
  simp only [widen, BitVec.toNat_setWidth]; omega

theorem toNat_countDown (t : Byte) : (countDown t).toNat = t.toNat - 1 := by
  have := t.isLt
  unfold countDown
  split
  · next h => simp [h]
  · next h =>
    have hne : t.toNat ≠ 0 := fun e => h (BitVec.eq_of_toNat_eq (by simpa using e))
    rw [BitVec.toNat_sub]
    simp; omega

end Sys2Proof.Machine
end

