-- ==== Sys2Proof/Laws/Outcomes.lean ====
section
/-! SUPPORT. How the shared operations answer: outcomes under a change of the state that they do not read, the scan of
the keypad, a run taken apart at its first step. -/

namespace Sys2Proof.Machine

/-- A range check commutes with a change of state that taking a fault commutes with. -/
theorem withRange_mapNext (f : State → State) (i : Instr) (s : State) (base count : Nat) (run run' : State)
    (hrun : run' = f run) (hfault : ∀ c, raiseAt i (f s) c = f (raiseAt i s c)) :
    withRange i (f s) base count run' = mapNext f (withRange i s base count run) := by
  unfold withRange
  split <;> simp [mapNext, hrun, hfault]

/-- A keypad skip commutes with a change of state that leaves the keypad alone and that skipping and taking a fault
commute with. -/
theorem skipOnKey_mapNext (f : State → State) (i : Instr) (s : State) (vx : Byte) (level : Bool)
    (hkey : (f s).key = s.key) (hskip : ∀ c, skipIf (f s) c = f (skipIf s c))
    (hfault : ∀ c, raiseAt i (f s) c = f (raiseAt i s c)) :
    skipOnKey i (f s) vx level = mapNext f (skipOnKey i s vx level) := by
  unfold skipOnKey
  split <;> simp [mapNext, hkey, hskip, hfault]

theorem withRange_answers (i : Instr) (s : State) (base count : Nat) (run : State) :
    ∃ t, withRange i s base count run = .next t := by
  unfold withRange
  split <;> exact ⟨_, rfl⟩

theorem skipOnKey_answers (i : Instr) (s : State) (vx : Byte) (level : Bool) :
    ∃ t, skipOnKey i s vx level = .next t := by
  unfold skipOnKey
  split <;> exact ⟨_, rfl⟩

/-- A skip as one record update. -/
theorem skipIf_eq (s : State) (c : Bool) : skipIf s c = { s with pc := if c then s.pc + 2#16 + 2#16 else s.pc + 2#16 } := by
  cases c <;> rfl

/-! ### The keypad -/

theorem firstPressed_none (key : Vector Bool 16) (h : ∀ k : Key, key[k.val] = false) : firstPressed key = none := by
  simp [firstPressed, scanOrder, h]

/-- The scan finds the pressed key with the least number. -/
theorem firstPressed_least (key : Vector Bool 16) (k : Key) (hk : key[k.val] = true)
    (hj : ∀ j : Key, j < k → key[j.val] = false) : firstPressed key = some k := by
  have hscan : scanOrder = List.finRange 16 := by decide
  rw [firstPressed, hscan, List.find?_eq_some_iff_getElem]
  refine ⟨hk, k.val, by simp, by simp, fun j hjk => ?_⟩
  simp only [List.getElem_finRange, Fin.cast_mk]
  rw [hj ⟨j, by omega⟩ hjk]
  rfl

/-- One level read after one level set. -/
theorem getElem_set_key (key : Vector Bool 16) (k j : Key) (b : Bool) :
    (key.set k.val b)[j.val] = if j = k then b else key[j.val] := by
  by_cases h : j = k
  · subst h; simp
  · have hne : k.val ≠ j.val := fun e => h (Fin.ext e.symm)
    simp [h, hne]

/-! ### Runs -/

/-- A run taken apart at its first step. -/
theorem run_succ (M : Host.Core) (n : Nat) (s : M.State) :
    M.run (n + 1) s =
      match M.step s with
      | .next t => M.run n t
      | .fault r => .fault r
      | .refused r => .refused r := rfl

end Sys2Proof.Machine
end

