-- ==== Sys2Proof/Laws/PerInstr.lean ====
section
/-! SUPPORT. Statements made of every instruction, one lemma per constructor. RowSelects: the row of the opcode map
that an instruction belongs to selects the instruction's word (30_encoding.md rule R95). -/

namespace Sys2Proof.Laws.RowSelects

/-- The word of `i`, masked with its row's mask, is its row's match; the no-op belongs to no row. -/
def Statement (i : Instr) : Prop :=
  ∀ k, Machine.rowOf i = some k →
    encode i &&& (Machine.opcodeMap.getD k (0, 0)).1 = (Machine.opcodeMap.getD k (0, 0)).2

theorem of_row (i : Instr) (k : Nat) (h : Machine.rowOf i = some k)
    (hs : encode i &&& (Machine.opcodeMap.getD k (0, 0)).1 = (Machine.opcodeMap.getD k (0, 0)).2) : Statement i := by
  intro k' hk
  rw [h] at hk
  cases hk
  exact hs

theorem cls : Statement (.cls) := of_row _ 0 rfl (mask_all _)
theorem ret : Statement (.ret) := of_row _ 1 rfl (mask_all _)
theorem jp (nnn : BitVec 12) : Statement (.jp nnn) := of_row _ 2 rfl ((mask_family _).trans (by simp [encode]; decide))
theorem call (nnn : BitVec 12) : Statement (.call nnn) := of_row _ 3 rfl ((mask_family _).trans (by simp [encode]; decide))
theorem seNN (x : Reg) (nn : Byte) : Statement (.seNN x nn) := of_row _ 4 rfl ((mask_family _).trans (by simp [encode]; decide))
theorem sneNN (x : Reg) (nn : Byte) : Statement (.sneNN x nn) := of_row _ 5 rfl ((mask_family _).trans (by simp [encode]; decide))
theorem seVY (x : Reg) (y : Reg) : Statement (.seVY x y) := of_row _ 6 rfl ((mask_family_n _).trans (by simp [encode]; decide))
theorem ldNN (x : Reg) (nn : Byte) : Statement (.ldNN x nn) := of_row _ 7 rfl ((mask_family _).trans (by simp [encode]; decide))
theorem addNN (x : Reg) (nn : Byte) : Statement (.addNN x nn) := of_row _ 8 rfl ((mask_family _).trans (by simp [encode]; decide))
theorem ldVY (x : Reg) (y : Reg) : Statement (.ldVY x y) := of_row _ 9 rfl ((mask_family_n _).trans (by simp [encode]; decide))
theorem orVY (x : Reg) (y : Reg) : Statement (.orVY x y) := of_row _ 10 rfl ((mask_family_n _).trans (by simp [encode]; decide))
theorem andVY (x : Reg) (y : Reg) : Statement (.andVY x y) := of_row _ 11 rfl ((mask_family_n _).trans (by simp [encode]; decide))
theorem xorVY (x : Reg) (y : Reg) : Statement (.xorVY x y) := of_row _ 12 rfl ((mask_family_n _).trans (by simp [encode]; decide))
theorem addVY (x : Reg) (y : Reg) : Statement (.addVY x y) := of_row _ 13 rfl ((mask_family_n _).trans (by simp [encode]; decide))
theorem subVY (x : Reg) (y : Reg) : Statement (.subVY x y) := of_row _ 14 rfl ((mask_family_n _).trans (by simp [encode]; decide))
theorem shrVY (x : Reg) (y : Reg) : Statement (.shrVY x y) := of_row _ 15 rfl ((mask_family_n _).trans (by simp [encode]; decide))
theorem subnVY (x : Reg) (y : Reg) : Statement (.subnVY x y) := of_row _ 16 rfl ((mask_family_n _).trans (by simp [encode]; decide))
theorem shlVY (x : Reg) (y : Reg) : Statement (.shlVY x y) := of_row _ 17 rfl ((mask_family_n _).trans (by simp [encode]; decide))
theorem sneVY (x : Reg) (y : Reg) : Statement (.sneVY x y) := of_row _ 18 rfl ((mask_family_n _).trans (by simp [encode]; decide))
theorem ldI (nnn : BitVec 12) : Statement (.ldI nnn) := of_row _ 19 rfl ((mask_family _).trans (by simp [encode]; decide))
theorem jpV0 (nnn : BitVec 12) : Statement (.jpV0 nnn) := of_row _ 20 rfl ((mask_family _).trans (by simp [encode]; decide))
theorem rnd (x : Reg) (nn : Byte) : Statement (.rnd x nn) := of_row _ 21 rfl ((mask_family _).trans (by simp [encode]; decide))
theorem drw (x : Reg) (y : Reg) (n : BitVec 4) : Statement (.drw x y n) := of_row _ 22 rfl ((mask_family _).trans (by simp [encode]; decide))
theorem skp (x : Reg) : Statement (.skp x) := of_row _ 23 rfl ((mask_family_nn _).trans (by simp [encode]; decide))
theorem sknp (x : Reg) : Statement (.sknp x) := of_row _ 24 rfl ((mask_family_nn _).trans (by simp [encode]; decide))
theorem ldVXDT (x : Reg) : Statement (.ldVXDT x) := of_row _ 25 rfl ((mask_family_nn _).trans (by simp [encode]; decide))
theorem ldVXK (x : Reg) : Statement (.ldVXK x) := of_row _ 26 rfl ((mask_family_nn _).trans (by simp [encode]; decide))
theorem ldDTVX (x : Reg) : Statement (.ldDTVX x) := of_row _ 27 rfl ((mask_family_nn _).trans (by simp [encode]; decide))
theorem ldSTVX (x : Reg) : Statement (.ldSTVX x) := of_row _ 28 rfl ((mask_family_nn _).trans (by simp [encode]; decide))
theorem addIVX (x : Reg) : Statement (.addIVX x) := of_row _ 29 rfl ((mask_family_nn _).trans (by simp [encode]; decide))
theorem ldFVX (x : Reg) : Statement (.ldFVX x) := of_row _ 30 rfl ((mask_family_nn _).trans (by simp [encode]; decide))
theorem ldBVX (x : Reg) : Statement (.ldBVX x) := of_row _ 31 rfl ((mask_family_nn _).trans (by simp [encode]; decide))
theorem storeVX (x : Reg) : Statement (.storeVX x) := of_row _ 32 rfl ((mask_family_nn _).trans (by simp [encode]; decide))
theorem loadVX (x : Reg) : Statement (.loadVX x) := of_row _ 33 rfl ((mask_family_nn _).trans (by simp [encode]; decide))
theorem nop (w : Word) : Statement (.nop w) := by intro k h; cases h

end Sys2Proof.Laws.RowSelects
end

