-- ==== Sys2Proof/Tests/Slice0.lean ====
section
/-! SUPPORT. The model's own tests: expected values from 95_test_vectors.md (ids F1, K1, A1, M1, D1, E1 and so on) or
worked out from the rule cited, and a witness for the hypotheses of every statement that has some. -/

namespace Sys2Proof.Tests

open Sys2Proof.Machine

/-! ### Helpers -/

/-- The state right after reset, with some registers set. -/
def regs (l : List (Reg × Byte)) : State := l.foldl (fun s p => setV s p.1 p.2) State.reset

/-- A state with bytes stored from an address on. -/
def bytesAt (s : State) (a : Nat) (l : List Byte) : State :=
  (l.zipIdx a).foldl (fun s p => storeByte s p.2 p.1) s

/-- A state with one pixel on. -/
def lit (s : State) (y x : Nat) : State := { s with disp := togglePixel blankDisplay y x }

/-- What `f` reads in the next state; none if there is none. -/
def field {α : Type} (f : State → α) (r : Result) : Option α :=
  match r with
  | .next t => some (f t)
  | _ => none

/-- A state in which host events are pending. -/
def events (s : State) (l : List HostEvent) : State := { s with pending := l }

/-- A fault record. -/
def record (cause : FaultCause) (addr : Word) (opcode : Option Word) : Option FaultRecord :=
  some { cause := cause, addr := addr, opcode := opcode }

/-! ### Well-formedness and decoding -/

/-- The one check of WellFormed refuses a no-op that carries a word some row selects. -/
theorem test_ill_formed_nops_are_refused :
    (Instr.nop 0x00E0).wf = false ∧ (Instr.nop 0x00EE).wf = false ∧ (Instr.nop 0x1234).wf = false
      ∧ (Instr.nop 0x5120).wf = false ∧ (Instr.nop 0x812E).wf = false ∧ (Instr.nop 0x9120).wf = false
      ∧ (Instr.nop 0xE19E).wf = false ∧ (Instr.nop 0xF155).wf = false := by decide

/-- 95_test_vectors.md, 2.7: these words are no-ops. -/
theorem test_unrecognized_words_are_well_formed_nops :
    [0x0000, 0x0123, 0x00E1, 0x00FF, 0x01E0, 0x0FEE, 0x5121, 0x9ABF, 0x8128, 0x812D, 0x812F, 0xE19F, 0xE100, 0xF100,
      0xF1FF, 0xF002, 0xF030, 0xF075, 0xF085].all
      (fun w => decide (decodeWord w = .nop w) && (Instr.nop w).wf) = true := by decide

/-- Words from the patterns of 30_encoding.md rule R95, digit by digit. -/
theorem test_decode_flow_and_skips :
    decodeWord 0x00EE#16 = .ret ∧ decodeWord 0x1FFE#16 = .jp 0xFFE#12 ∧ decodeWord 0x2300#16 = .call 0x300#12
      ∧ decodeWord 0xB2FE#16 = .jpV0 0x2FE#12 ∧ decodeWord 0x3A2F#16 = .seNN 10 0x2F#8
      ∧ decodeWord 0x4A2F#16 = .sneNN 10 0x2F#8 ∧ decodeWord 0x5120#16 = .seVY 1 2
      ∧ decodeWord 0x9120#16 = .sneVY 1 2 ∧ decodeWord 0xE59E#16 = .skp 5 ∧ decodeWord 0xE5A1#16 = .sknp 5 := by decide

theorem test_decode_arithmetic :
    decodeWord 0x6A2F#16 = .ldNN 10 0x2F#8 ∧ decodeWord 0x7120#16 = .addNN 1 0x20#8 ∧ decodeWord 0x8120#16 = .ldVY 1 2
      ∧ decodeWord 0x8121#16 = .orVY 1 2 ∧ decodeWord 0x8122#16 = .andVY 1 2 ∧ decodeWord 0x8123#16 = .xorVY 1 2
      ∧ decodeWord 0x8124#16 = .addVY 1 2 ∧ decodeWord 0x8125#16 = .subVY 1 2 ∧ decodeWord 0x8126#16 = .shrVY 1 2
      ∧ decodeWord 0x8127#16 = .subnVY 1 2 ∧ decodeWord 0x812E#16 = .shlVY 1 2 := by decide

theorem test_decode_memory_display_and_timers :
    decodeWord 0x00E0#16 = .cls ∧ decodeWord 0xD12F#16 = .drw 1 2 0xF#4 ∧ decodeWord 0xA2F0#16 = .ldI 0x2F0#12
      ∧ decodeWord 0xC30F#16 = .rnd 3 0x0F#8 ∧ decodeWord 0xF307#16 = .ldVXDT 3 ∧ decodeWord 0xF30A#16 = .ldVXK 3
      ∧ decodeWord 0xF315#16 = .ldDTVX 3 ∧ decodeWord 0xF318#16 = .ldSTVX 3 ∧ decodeWord 0xF21E#16 = .addIVX 2
      ∧ decodeWord 0xF329#16 = .ldFVX 3 ∧ decodeWord 0xF433#16 = .ldBVX 4 ∧ decodeWord 0xF255#16 = .storeVX 2
      ∧ decodeWord 0xF265#16 = .loadVX 2 := by decide

/-- The byte at the lower address is the high half (20_memory.md rule R64); one byte is no instruction. -/
theorem test_decode_bytes :
    decodeBytes [0xA2, 0xF0, 0x60] = .ok (.ldI 0x2F0#12, [0x60]) ∧ decodeBytes [0xA2] = .error .truncated
      ∧ encodeBytes (.ldI 0x2F0#12) = [0xA2, 0xF0] := by
  refine ⟨rfl, rfl, by decide⟩

/-! ### Control transfer and skips -/

/-- F1. -/
theorem test_jp : field (·.pc) (step (State.reset.withFetchWord 16 0x1234)) = some 0x0234 := by decide

/-- F4. -/
theorem test_call_pushes_the_advanced_pc :
    field (fun t => (t.stack, t.pc)) (exec (.call 0x300) State.reset) = some ([0x0202], 0x0300) := by decide

/-- F6, with the depth of the vector. -/
theorem test_call_with_a_full_stack :
    field (fun t => (t.stack.length, t.pc, t.fault))
        (exec (.call 0x300) { State.reset with stack := List.replicate 12 0x0202 })
      = some (12, 0x0200, record .stackOverflow 0x0200 (some 0x2300)) := by decide

/-- F8. -/
theorem test_ret_pops_the_last_entry :
    field (fun t => (t.stack, t.pc)) (exec .ret { State.reset with stack := [0x0202, 0x0304] })
      = some ([0x0202], 0x0304) := by decide

/-- F9. -/
theorem test_ret_with_an_empty_stack :
    field (fun t => (t.pc, t.fault)) (exec .ret State.reset)
      = some (0x0200, record .stackUnderflow 0x0200 (some 0x00EE)) := by decide

/-- F11. -/
theorem test_jp_v0_uses_v0_only :
    field (·.pc) (exec (.jpV0 0x2FE) (regs [(0, 0x03), (2, 0x09)])) = some 0x0301 := by decide

/-- F12. -/
theorem test_jp_v0_does_not_wrap : field (·.pc) (exec (.jpV0 0xFFF) (regs [(0, 0xFF)])) = some 0x10FE := by decide

/-- F14: the second byte of the fetch is out of range. -/
theorem test_fetch_at_the_last_byte :
    field (fun t => (t.pc, t.fault)) (step (bytesAt { State.reset with pc := 0x0FFF } 0xFFF [0x60]))
      = some (0x0FFF, record (.memoryBounds 0x1000) 0x0FFF none) := by decide

/-- K1 and K2. -/
theorem test_se_literal :
    field (·.pc) (exec (.seNN 10 0x2F) (regs [(10, 0x2F)])) = some 0x0204
      ∧ field (·.pc) (exec (.seNN 10 0x2F) (regs [(10, 0x2E)])) = some 0x0202 := by decide

/-- K3 and K4. -/
theorem test_sne_literal :
    field (·.pc) (exec (.sneNN 10 0x2F) (regs [(10, 0x2F)])) = some 0x0202
      ∧ field (·.pc) (exec (.sneNN 10 0x2F) (regs [(10, 0x2E)])) = some 0x0204 := by decide

/-- K5 and K6. -/
theorem test_se_registers :
    field (·.pc) (exec (.seVY 1 2) (regs [(1, 7), (2, 7)])) = some 0x0204
      ∧ field (·.pc) (exec (.seVY 1 2) (regs [(1, 7), (2, 8)])) = some 0x0202 := by decide

/-- K8 and K9. -/
theorem test_sne_registers :
    field (·.pc) (exec (.sneVY 1 2) (regs [(1, 7), (2, 7)])) = some 0x0202
      ∧ field (·.pc) (exec (.sneVY 1 2) (regs [(1, 7), (2, 8)])) = some 0x0204 := by decide

/-- K14: a skip at 0xFFE leaves `pc` at 0x1002. -/
theorem test_skip_past_the_end :
    field (·.pc) (exec (.seNN 0 0) { State.reset with pc := 0x0FFE }) = some 0x1002 := by decide

/-! ### Arithmetic and logic -/

/-- A1. -/
theorem test_ld_literal : field (fun t => getV t 10) (exec (.ldNN 10 0x2F) State.reset) = some 0x2F := by decide

/-- A2: no carry is recorded. -/
theorem test_add_literal_sets_no_flag :
    field (fun t => (getV t 1, getV t 15)) (exec (.addNN 1 0x20) (regs [(1, 0xF0)])) = some (0x10, 0) := by decide

/-- A4. -/
theorem test_add_literal_to_vf : field (fun t => getV t 15) (exec (.addNN 15 1) (regs [(15, 0xFF)])) = some 0 := by
  decide

/-- A5. -/
theorem test_copy : field (fun t => getV t 1) (exec (.ldVY 1 2) (regs [(2, 0x55)])) = some 0x55 := by decide

/-- A7. -/
theorem test_or_by_mode :
    field (fun t => (getV t 1, getV t 15)) (exec (.orVY 1 2) (regs [(1, 0x0F), (2, 0xF0), (15, 1)])) = some (0xFF, 0)
      ∧ field (fun t => (getV t 1, getV t 15))
          (exec (.orVY 1 2) { regs [(1, 0x0F), (2, 0xF0), (15, 1)] with mode := .modern }) = some (0xFF, 1) := by decide

/-- A12: with X = 15 the zero is what remains in legacy mode. -/
theorem test_and_into_vf_by_mode :
    field (fun t => getV t 15) (exec (.andVY 15 2) (regs [(15, 0xFF), (2, 0x0F)])) = some 0
      ∧ field (fun t => getV t 15) (exec (.andVY 15 2) { regs [(15, 0xFF), (2, 0x0F)] with mode := .modern })
          = some 0x0F := by decide

/-- A9. -/
theorem test_xor_by_mode :
    field (fun t => (getV t 1, getV t 15)) (exec (.xorVY 1 2) (regs [(1, 0xFF), (2, 0x0F), (15, 1)])) = some (0xF0, 0)
      ∧ field (fun t => (getV t 1, getV t 15))
          (exec (.xorVY 1 2) { regs [(1, 0xFF), (2, 0x0F), (15, 1)] with mode := .modern }) = some (0xF0, 1) := by decide

/-- A15 and A17. -/
theorem test_add_sets_the_carry :
    field (fun t => (getV t 1, getV t 15)) (exec (.addVY 1 2) (regs [(1, 0xC8), (2, 0x64)])) = some (0x2C, 1)
      ∧ field (fun t => (getV t 1, getV t 15)) (exec (.addVY 1 2) (regs [(1, 0xFF), (2, 0), (15, 1)]))
          = some (0xFF, 0) := by decide

/-- A19: the sum is lost to the carry. -/
theorem test_add_into_vf : field (fun t => getV t 15) (exec (.addVY 15 1) (regs [(15, 0xFF), (1, 2)])) = some 1 := by
  decide

/-- A21 and A23. -/
theorem test_sub_sets_no_borrow :
    field (fun t => (getV t 1, getV t 15)) (exec (.subVY 1 2) (regs [(1, 0x0A), (2, 0x0C), (15, 1)])) = some (0xFE, 0)
      ∧ field (fun t => (getV t 1, getV t 15)) (exec (.subVY 1 2) (regs [(1, 7), (2, 7)])) = some (0, 1) := by decide

/-- A27 and A31. -/
theorem test_subn_sets_no_borrow :
    field (fun t => (getV t 1, getV t 15)) (exec (.subnVY 1 2) (regs [(1, 0x0A), (2, 0x0C)])) = some (0x02, 1)
      ∧ field (fun t => getV t 15) (exec (.subnVY 15 1) (regs [(15, 5), (1, 3)])) = some 0 := by decide

/-- A32. -/
theorem test_shr_source_by_mode :
    field (fun t => (getV t 1, getV t 2, getV t 15)) (exec (.shrVY 1 2) (regs [(1, 5), (2, 8)])) = some (4, 8, 0)
      ∧ field (fun t => (getV t 1, getV t 2, getV t 15))
          (exec (.shrVY 1 2) { regs [(1, 5), (2, 8)] with mode := .modern }) = some (2, 8, 1) := by decide

/-- A36. -/
theorem test_shl_source_by_mode :
    field (fun t => (getV t 1, getV t 15)) (exec (.shlVY 1 2) (regs [(1, 0x81), (2, 0x40)])) = some (0x80, 0)
      ∧ field (fun t => (getV t 1, getV t 15))
          (exec (.shlVY 1 2) { regs [(1, 0x81), (2, 0x40)] with mode := .modern }) = some (0x02, 1) := by decide

/-! ### Index register and memory -/

/-- M1. -/
theorem test_ld_index : field (·.index) (exec (.ldI 0x2F0) State.reset) = some 0x02F0 := by decide

/-- M3 and M4. -/
theorem test_add_index_wraps_at_16_bits :
    field (·.index) (exec (.addIVX 2) { regs [(2, 1)] with index := 0x0FFF }) = some 0x1000
      ∧ field (fun t => (t.index, getV t 15)) (exec (.addIVX 2) { regs [(2, 1), (15, 7)] with index := 0xFFFF })
          = some (0, 7) := by decide

/-- M6: the whole byte is multiplied. -/
theorem test_glyph_address : field (·.index) (exec (.ldFVX 3) (regs [(3, 0x1A)])) = some 0x0082 := by decide

/-- M8. -/
theorem test_bcd_at_the_top_of_memory :
    field (·.mem) (exec (.ldBVX 4) { regs [(4, 0x9C)] with index := 0x0FFD })
      = some [(0xFFD, 1), (0xFFE, 5), (0xFFF, 6)] := by decide

/-- M9: nothing is written. -/
theorem test_bcd_out_of_range :
    field (fun t => (t.mem, t.pc, t.fault)) (exec (.ldBVX 4) { regs [(4, 0x9C)] with index := 0x0FFE })
      = some ([], 0x0200, record (.memoryBounds 0x1000) 0x0200 (some 0xF433)) := by decide

/-- M11. -/
theorem test_store_registers_by_mode :
    field (fun t => (t.mem, t.index))
        (exec (.storeVX 2) { regs [(0, 0x11), (1, 0x22), (2, 0x33), (3, 0x44)] with index := 0x0400 })
      = some ([(0x400, 0x11), (0x401, 0x22), (0x402, 0x33)], 0x0403)
      ∧ field (·.index) (exec (.storeVX 2) { State.reset with index := 0x0400, mode := .modern }) = some 0x0400 := by
  decide

/-- M14: not even the byte that fits is written. -/
theorem test_store_registers_out_of_range :
    field (fun t => (t.mem, t.index, t.fault)) (exec (.storeVX 1) { regs [(0, 0xAB)] with index := 0x0FFF })
      = some ([], 0x0FFF, record (.memoryBounds 0x1000) 0x0200 (some 0xF155)) := by decide

/-- M12. -/
theorem test_load_registers :
    field (fun t => ([getV t 0, getV t 1, getV t 2, getV t 3], t.index))
        (exec (.loadVX 2) { bytesAt (regs [(3, 0x99)]) 0x400 [0x11, 0x22, 0x33, 0x44] with index := 0x0400 })
      = some ([0x11, 0x22, 0x33, 0x99], 0x0403) := by decide

/-- M17. -/
theorem test_load_registers_out_of_range :
    field (fun t => (getV t 0, t.fault)) (exec (.loadVX 0) { regs [(0, 5)] with index := 0x1000 })
      = some (5, record (.memoryBounds 0x1000) 0x0200 (some 0xF065)) := by decide

/-- Writing what an unlisted address reads as removes the entry: 0x000 holds the font byte 0xF0 (20_memory.md rule R62). -/
theorem test_memory_stays_canonical :
    (Memory.write [] 0 0xF0, Memory.write [(0x300, 1)] 0x300 0, Memory.write [(0x300, 1)] 0x200 7)
      = ([], [], [(0x200, 7), (0x300, 1)]) := by decide

/-! ### Display -/

/-- D1. -/
theorem test_cls :
    field (fun t => (pixel t.disp 31 63, t.redraw, getV t 15)) (exec .cls (lit (regs [(15, 1)]) 31 63))
      = some (false, true, 1) := by decide

/-- D2: the origin wraps. -/
theorem test_draw_wraps_the_origin :
    field (fun t => (pixel t.disp 3 5, pixel t.disp 3 6, getV t 15, t.redraw))
        (exec (.drw 0 1 1) { bytesAt (regs [(0, 69), (1, 35)]) 0x300 [0x80] with index := 0x300 })
      = some (true, false, 0, true) := by decide

/-- D5: one bit of the sprite meets a lit pixel. -/
theorem test_draw_collision :
    field (fun t => (pixel t.disp 0 0, pixel t.disp 0 2, getV t 15))
        (exec (.drw 0 1 1) { bytesAt (lit State.reset 0 2) 0x300 [0xA0] with index := 0x300 })
      = some (true, false, 1) := by decide

/-- D4: bit 0 is clipped at the right edge and does not reappear on the left. -/
theorem test_draw_clips :
    field (fun t => (pixel t.disp 0 57, pixel t.disp 0 63, pixel t.disp 0 0, pixel t.disp 1 0))
        (exec (.drw 0 1 1) { bytesAt (regs [(0, 57)]) 0x300 [0xFF] with index := 0x300 })
      = some (true, true, false, false) := by decide

/-- D12 and D13: a drawn row out of memory faults, a clipped row is not read. -/
theorem test_draw_out_of_memory :
    field (fun t => (t.redraw, t.fault)) (exec (.drw 0 1 2) { State.reset with index := 0x0FFF })
      = some (false, record (.memoryBounds 0x1000) 0x0200 (some 0xD012))
      ∧ field (fun t => (pixel t.disp 31 0, t.fault))
          (exec (.drw 0 1 15) { bytesAt (regs [(1, 31)]) 0xFFF [0x80] with index := 0x0FFF }) = some (true, none) := by
  decide

/-- D9: the column comes from the old VF. -/
theorem test_draw_origin_from_old_vf :
    field (fun t => (pixel t.disp 5 10, getV t 15))
        (exec (.drw 15 1 1) { bytesAt (regs [(15, 10), (1, 5)]) 0x300 [0x80] with index := 0x300 })
      = some (true, 0) := by decide

/-- Program P3's steps 6 to 8 (95_test_vectors.md): its second and third draw are two draws in a row over pixels that
are on; the third turns them on again without a collision, and VF is 0 (log 16). -/
theorem test_drawing_twice_over_lit_pixels :
    field (fun t => (pixel t.disp 30 62, pixel t.disp 30 63, pixel t.disp 31 62, pixel t.disp 31 63, getV t 13, getV t 15))
        (execAll [.drw 0 1 3, .ldVY 13 15, .drw 0 1 3]
          { bytesAt (regs [(0, 0x3E), (1, 0x1E)]) 0x212 [0xFF, 0x81, 0xFF] with
            index := 0x212
            disp := togglePixel (togglePixel (togglePixel blankDisplay 30 62) 30 63) 31 62 })
      = some (true, true, true, false, 1, 0) := by decide

/-! ### Keypad, timers, random, no-op -/

/-- A state with one key down. -/
def keyDown (s : State) (k : Key) : State := { s with key := s.key.set k.val true }

/-- E1 and E6. -/
theorem test_skp :
    field (·.pc) (exec (.skp 5) (keyDown (regs [(5, 0x0A)]) 10)) = some 0x0204
      ∧ field (fun t => (t.pc, t.fault)) (exec (.skp 5) (keyDown (regs [(5, 0x10)]) 0))
          = some (0x0200, record (.keyIndex 0x10) 0x0200 (some 0xE59E)) := by decide

/-- E3 and E4. -/
theorem test_sknp :
    field (·.pc) (exec (.sknp 5) (keyDown (regs [(5, 0x0A)]) 10)) = some 0x0202
      ∧ field (·.pc) (exec (.sknp 5) (regs [(5, 0x0A)])) = some 0x0204 := by decide

/-- E9. -/
theorem test_read_delay_timer :
    field (fun t => (getV t 3, t.dt)) (exec (.ldVXDT 3) { State.reset with dt := 0x3C }) = some (0x3C, 0x3C) := by decide

/-- E10. -/
theorem test_write_delay_timer :
    field (·.dt) (exec (.ldDTVX 3) { regs [(3, 0x3C)] with dt := 5 }) = some 0x3C := by decide

/-- E11. -/
theorem test_write_sound_timer :
    field (fun t => (t.st, t.tone)) (exec (.ldSTVX 3) (regs [(3, 5)])) = some (5, false) := by decide

/-- The FX0A table, step 2: the least pressed key is latched and `pc` stays. -/
theorem test_key_wait_latches_the_least_key :
    field (fun t => (t.wait, t.pc)) (exec (.ldVXK 3) (keyDown (keyDown State.reset 9) 7))
      = some (.keyLatched 7, 0x0200) := by decide

/-- The FX0A table, step 5: key 7 is released, key 2 plays no part. -/
theorem test_key_wait_completes_on_release :
    field (fun t => (getV t 3, t.wait, t.pc)) (exec (.ldVXK 3) { keyDown State.reset 2 with wait := .keyLatched 7 })
      = some (7, .idle, 0x0202) := by decide

/-- E13: the literal 0 gives 0 whatever byte is drawn, and `pc` advances. -/
theorem test_random_with_literal_zero :
    field (fun t => (t.pc, t.draws)) (exec (.rnd 3 0) State.reset) = some (0x0202, 1)
      ∧ field (fun t => getV t 3) (exec (.rnd 3 0) (regs [(3, 9)])) = some 0 := by
  refine ⟨rfl, ?_⟩
  show some (getV (setV _ 3 _) 3) = some 0
  simp [getV, setV]

/-- 95_test_vectors.md, 2.7, the word 0x8128. -/
theorem test_nop_only_advances :
    field (fun t => { t with pc := 0 }) (exec (.nop 0x8128) (regs [(1, 3), (2, 4), (15, 1)]))
      = some { regs [(1, 3), (2, 4), (15, 1)] with pc := 0 } := rfl

/-! ### Ticks, host events, reset -/

/-- The tick table, first tick from `DT = 1`, `ST = 3`. -/
theorem test_tick :
    field (fun t => (t.dt, t.st, t.tone)) (step (events { State.reset with dt := 1, st := 3 } [.tick]))
      = some (0, 2, true) := by decide

/-- From `ST = 1` one tick: no tone under post_decrement, tone under pre_decrement. -/
theorem test_audio_gate :
    (tick { State.reset with st := 1 }).tone = false
      ∧ (tick { State.reset with st := 1, params := { defaultParams with audioGate := .preDecrement } }).tone = true := by
  decide

/-- 60_exceptions.md rules R229 and R242: a faulted machine is stopped, the host's reset gives it its reset state. -/
theorem test_reset_leaves_the_faulted_state :
    step { State.reset with fault := record .stackUnderflow 0x0200 (some 0x00EE) }
        = .fault (.stopped { cause := .stackUnderflow, addr := 0x0200, opcode := some 0x00EE })
      ∧ step (events { State.reset with fault := record .stackUnderflow 0x0200 (some 0x00EE), dt := 9 }
          [.input (.reset .legacy)]) = .next State.reset := ⟨rfl, rfl⟩

/-- 95_test_vectors.md, 2.8. -/
theorem test_loaded_bytes :
    [0x200, 0x201, 0x04F, 0x050].map (imageByte [0xAB] (Vector.replicate 80 0x80) (fun _ => 0))
      = [0xAB, 0, 0x80, 0] := by decide

/-- P4, frame 1: four steps, one tick, run as host events. -/
theorem test_frame_one_of_p4 :
    field (fun t => (t.pc, getV t 1, t.dt, t.st, t.tone))
        (Host.Core.run core 6 (events (bytesAt State.reset 0x200 [0x60, 0x03, 0xF0, 0x15, 0xF0, 0x18, 0xF1, 0x07])
          (frameEvents defaultParams [])))
      = some (0x0208, 3, 2, 2, true) := by decide

/-! ### Witnesses: for each statement with hypotheses, states and operands that meet them, clause by clause, at the
boundaries of the ranges -/

theorem test_witness_decode_undoes_encode : (Instr.nop 0x0000).wf = true ∧ (Instr.jp 0xFFF).wf = true := by decide

theorem test_witness_every_word_selects_one_row :
    0x0000#16 &&& (opcodeMap.getD 0 (0, 0)).1 ≠ (opcodeMap.getD 0 (0, 0)).2
      ∧ ∀ k, k < 34 → 0x0000#16 &&& (opcodeMap.getD k (0, 0)).1 ≠ (opcodeMap.getD k (0, 0)).2 := by decide

/-- `pc` at 0xFFE, the last address a fetch can be made from. -/
def atTheEnd : State := bytesAt { State.reset with pc := 0x0FFE } 0xFFE [0x12, 0x34]

theorem test_witness_step_runs_the_decoded_instruction :
    (Instr.jp 0x234).wf = true ∧ atTheEnd.pc.toNat + 1 < 0x1000
      ∧ decodeBytes [atTheEnd.mem.read atTheEnd.pc.toNat, atTheEnd.mem.read (atTheEnd.pc.toNat + 1)]
          = .ok (.jp 0x234, [])
      ∧ atTheEnd.fault = none ∧ atTheEnd.paused = false ∧ atTheEnd.pending = []
      ∧ (events atTheEnd [.step, .tick]).pending = .step :: [.tick] := by
  refine ⟨rfl, by decide, rfl, rfl, rfl, rfl, rfl⟩

theorem test_witness_fetch :
    atTheEnd.pc.toNat + 1 < 0x1000 ∧ fetch atTheEnd = .ok 0x1234
      ∧ 0x0FFF ≤ ({ State.reset with pc := 0x0FFF } : State).pc.toNat
      ∧ 0x0FFF ≤ ({ State.reset with pc := 0x1000 } : State).pc.toNat
      ∧ State.reset.fault = none ∧ State.reset.paused = false ∧ State.reset.pending = [] := by
  refine ⟨by decide, rfl, by decide, by decide, rfl, rfl, rfl⟩

theorem test_witness_unrecognized_word :
    fetch State.reset = .ok 0x0000
      ∧ ∀ k, k < 34 → 0x0000#16 &&& (opcodeMap.getD k (0, 0)).1 ≠ (opcodeMap.getD k (0, 0)).2 := ⟨rfl, by decide⟩

theorem test_witness_call :
    ({ State.reset with stack := List.replicate 11 0x0202 } : State).stack.length < State.reset.params.stackDepth
      ∧ ({ State.reset with stack := List.replicate 12 0x0202 } : State).stack.length = State.reset.params.stackDepth := by
  decide

theorem test_witness_ret :
    ({ State.reset with stack := [0x0202] } : State).stack = [] ++ [0x0202]
      ∧ ({ State.reset with stack := [0x0202, 0x0304] } : State).stack = [0x0202] ++ [0x0304]
      ∧ State.reset.stack = [] := by decide

theorem test_witness_nested_calls :
    (List.replicate 12 0x300#12) ≠ [] ∧ State.reset.stack.length + (List.replicate 12 0x300#12).length
      ≤ State.reset.params.stackDepth := by decide

theorem test_witness_key_skips :
    (getV (regs [(5, 0)]) 5).toNat < 16 ∧ (getV (regs [(5, 15)]) 5).toNat < 16 ∧ 15 < (getV (regs [(5, 16)]) 5).toNat
      ∧ 15 < (getV (regs [(5, 255)]) 5).toNat := by decide

theorem test_witness_shift_source :
    5 = (if State.reset.mode = .legacy then (getV (regs [(1, 8), (2, 5)]) 2).toNat else (getV (regs [(1, 8)]) 1).toNat)
      ∧ 8 = (if ({ regs [(1, 8), (2, 5)] with mode := .modern } : State).mode = .legacy
              then (getV (regs [(1, 8), (2, 5)]) 2).toNat else (getV (regs [(1, 8)]) 1).toNat) := by decide

/-- The state after reset with another index. -/
def atIndex (w : Word) : State := { State.reset with index := w }

theorem test_witness_decimal_digits :
    baseAddress (atIndex 0x0FFD) + 2 < 0x1000 ∧ 0x1000 ≤ baseAddress (atIndex 0x0FFE) + 2
      ∧ (0x0FFC < baseAddress (atIndex 0x0FFD) ∨ baseAddress (atIndex 0x0FFD) + 2 < 0x0FFC)
      ∧ (0x1000 < baseAddress (atIndex 0x0FFD) ∨ baseAddress (atIndex 0x0FFD) + 2 < 0x1000) := by decide

theorem test_witness_transfers :
    baseAddress (atIndex 0x0FF0) + (15 : Reg).val < 0x1000 ∧ 0x1000 ≤ baseAddress (atIndex 0x0FF1) + (15 : Reg).val
      ∧ baseAddress (atIndex 0x0FFF) + (0 : Reg).val < 0x1000 ∧ 0x1000 ≤ baseAddress (atIndex 0x1000) + (0 : Reg).val
      ∧ (15 : Reg).val ≤ (15 : Reg).val
      ∧ (0x0FEF < baseAddress (atIndex 0x0FF0) ∨ baseAddress (atIndex 0x0FF0) + (15 : Reg).val < 0x0FEF) := by decide

theorem test_witness_store_then_fetch :
    (15 : Reg).val = (14 : Reg).val + 1 ∧ (15 : Reg).val ≤ (15 : Reg).val
      ∧ baseAddress (atIndex 0x0FF0) + (15 : Reg).val < 0x1000 := by decide

theorem test_witness_canonical_memory :
    Memory.wf [(0x300, 1)] ∧ ∀ a, Memory.read [(0x300, 1)] a = Memory.read [(0x300, 1)] a := ⟨by decide, fun _ => rfl⟩

/-- A sprite row of all ones at 0x300, the pixel in row `y` and column `x` lit. -/
def sprite (y x : Nat) : State := { bytesAt (lit State.reset y x) 0x300 [0xFF] with index := 0x300 }

/-- No visible row, the last row at 0xFFF, the first row beyond it; a collision at the last column, and none. -/
theorem test_witness_draw :
    0 = (getV State.reset 0).toNat % 64 ∧ 0 = (getV State.reset 1).toNat % 32
      ∧ min (0#4).toNat (32 - 0) = 0 ∧ baseAddress (atIndex 0x0FFF) + min (1#4).toNat (32 - 0) ≤ 0x1000
      ∧ 0 < min (2#4).toNat (32 - 0) ∧ 0x1000 < baseAddress (atIndex 0x0FFF) + min (2#4).toNat (32 - 0)
      ∧ (spriteBit (sprite 0 7).mem 0x300 0 0 1 0 7 = true ∧ pixel (sprite 0 7).disp 0 7 = true)
      ∧ ∀ py, py < 32 → ∀ px, px < 64 → spriteBit (sprite 0 8).mem 0x300 0 0 1 py px = true →
          pixel (sprite 0 8).disp py px = false := by decide

/-- A pixel of the sprite that was off before, and a sprite with every pixel on before. -/
theorem test_witness_drawing_twice :
    (0 : Reg) ≠ 15 ∧ (1 : Reg) ≠ 15 ∧ baseAddress (sprite 0 7) + min (1#4).toNat (32 - 0) ≤ 0x1000
      ∧ (spriteBit (sprite 0 7).mem 0x300 0 0 1 0 6 = true ∧ pixel (sprite 0 7).disp 0 6 = false)
      ∧ ∀ py, py < 32 → ∀ px, px < 64 → spriteBit (bytesAt State.reset 0x300 [0x80]).mem 0x300 0 0 1 py px = true →
          pixel (lit State.reset 0 0).disp py px = true := by decide

theorem test_witness_key_wait :
    (State.reset.wait = .idle ∧ ∀ k : Key, State.reset.key[k.val] = false)
      ∧ ((keyDown State.reset 15).wait = .idle ∧ (keyDown State.reset 15).key[15] = true
          ∧ ∀ j : Key, j < 15 → (keyDown State.reset 15).key[j.val] = false)
      ∧ (keyDown State.reset 0).key[0] = true ∧ State.reset.key[0] = false
      ∧ ({ State.reset with wait := .keyLatched 0 } : State).wait = .keyLatched 0 := by decide

theorem test_witness_tick :
    State.reset.fault = none ∧ State.reset.paused = false ∧ (events State.reset [.tick]).pending = .tick :: []
      ∧ State.reset.params.audioGate = .postDecrement
      ∧ ({ defaultParams with audioGate := .preDecrement } : Params).audioGate = .preDecrement ∧ 0 < 1 := by decide

theorem test_witness_host_events :
    (events State.reset [.input (.keyDown 15)]).pending = .input (.keyDown 15) :: []
      ∧ (events State.reset [.input (.keyUp 0)]).pending = .input (.keyUp 0) :: []
      ∧ (events State.reset [.input (.reset .modern), .step]).pending = .input (.reset .modern) :: [.step]
      ∧ (events State.reset [.input .pause]).pending = .input .pause :: []
      ∧ (events State.reset [.input .resume]).pending = .input .resume :: []
      ∧ (events State.reset [.input .quit]).pending = .input .quit :: []
      ∧ (events State.reset [.render]).pending = .render :: []
      ∧ ({ events State.reset [.step] with paused := true } : State).paused = true := by decide

/-- Pending strobes of a paused machine, and a paused machine with nothing pending. -/
theorem test_witness_paused :
    (events { State.reset with paused := true } [.step]).pending = .step :: []
      ∧ (events { State.reset with paused := true } [.tick]).pending = .tick :: []
      ∧ (events { State.reset with paused := true } [.render]).pending = .render :: []
      ∧ ({ State.reset with paused := true } : State).paused = true
      ∧ ({ State.reset with paused := true } : State).fault = none
      ∧ ({ State.reset with paused := true } : State).pending = [] := by decide

/-- The shortest and the longest ROM, the least stack depth. -/
theorem test_witness_loader :
    ([] : List Byte).length ≤ 3584 ∧ (List.replicate 3584 (0 : Byte)).length ≤ 3584
      ∧ 1 ≤ ({ defaultParams with stackDepth := 1 } : Params).stackDepth
      ∧ legalParams { defaultParams with stackDepth := 0 } = false :=
  ⟨by decide, Nat.le_of_eq List.length_replicate, by decide, by decide⟩

theorem test_witness_loaded_machine :
    ∃ t, loadRom [0xAB] (Vector.replicate 80 0) (fun _ => 0) .legacy defaultParams = some t := by
  unfold loadRom
  rw [if_pos (by decide)]
  exact ⟨_, rfl⟩

/-- A machine that the loader built, with a reset command pending: its image is the memory built. -/
theorem test_witness_reset_of_a_loaded_machine :
    ∃ u, loadRom [0xAB] (Vector.replicate 80 0) (fun _ => 0) .legacy
          (events u [.input (.reset .modern)]).params = some u
      ∧ (events u [.input (.reset .modern)]).image = u.mem
      ∧ (events u [.input (.reset .modern)]).pending = .input (.reset .modern) :: [] := by
  obtain ⟨u, h⟩ := test_witness_loaded_machine
  obtain ⟨-, -, hu⟩ := (loadRom_eq_some_iff _ _ _ _ _ _).mp h
  have hp : u.params = defaultParams := by rw [hu]
  exact ⟨u, by rw [← hp] at h; exact h, by rw [hu]; rfl, rfl⟩

/-- A fault of each cause, from a state with none. -/
theorem test_witness_faults :
    State.reset.fault = none
      ∧ field (·.fault) (exec (.call 0x300) { State.reset with stack := List.replicate 12 0x0202 })
          = some (record .stackOverflow 0x0200 (some 0x2300))
      ∧ field (·.fault) (exec .ret State.reset) = some (record .stackUnderflow 0x0200 (some 0x00EE))
      ∧ field (·.fault) (exec (.loadVX 0) (atIndex 0x1000)) = some (record (.memoryBounds 0x1000) 0x0200 (some 0xF065))
      ∧ field (·.fault) (exec (.sknp 5) (regs [(5, 0xFF)])) = some (record (.keyIndex 0xFF) 0x0200 (some 0xE5A1))
      ∧ field (·.fault) (engineStep { State.reset with pc := 0x0FFF })
          = some (record (.memoryBounds 0x1000) 0x0FFF none) := by decide

/-- A faulted machine with each event pending that the statement names. -/
theorem test_witness_faulted :
    ({ State.reset with fault := record .stackUnderflow 0x0200 (some 0x00EE) } : State).fault
        = some { cause := .stackUnderflow, addr := 0x0200, opcode := some 0x00EE }
      ∧ field (·.fault) (step (events { State.reset with fault := record .stackUnderflow 0x0200 none } [.render]))
          = some (record .stackUnderflow 0x0200 none)
      ∧ (events State.reset [.step]).pending = .step :: [] ∧ (events State.reset [.tick]).pending = .tick :: [] := by
  decide

/-- A register that an instruction does not name, VF that a logic instruction leaves alone in modern mode, a flag
writer that completes. -/
theorem test_witness_registers_and_flag :
    namesDestination (.ldNN 10 0x2F) 9 = false ∧ writesVF .modern (.orVY 1 2) = false
      ∧ writesVF State.reset.mode (.orVY 1 2) = true ∧ namesDestination (.orVY 1 2) 15 = false
      ∧ field (·.fault) (exec (.orVY 1 2) State.reset) = some none := by decide

/-- Each element that some instruction changes. -/
theorem test_witness_writers :
    field (·.mem) (exec (.storeVX 0) { regs [(0, 1)] with index := 0x300 }) = some [(0x300, 1)]
      ∧ field (·.stack) (exec (.call 0x300) State.reset) = some [0x0202]
      ∧ field (·.index) (exec (.ldI 0x300) State.reset) = some 0x0300
      ∧ field (·.dt) (exec (.ldDTVX 0) (regs [(0, 1)])) = some 1
      ∧ field (·.st) (exec (.ldSTVX 0) (regs [(0, 1)])) = some 1
      ∧ field (·.redraw) (exec .cls State.reset) = some true
      ∧ field (·.wait) (exec (.ldVXK 0) (keyDown State.reset 0)) = some (.keyLatched 0)
      ∧ field (·.draws) (exec (.rnd 0 1) State.reset) = some 1 := by
  refine ⟨by decide, by decide, by decide, by decide, by decide, by decide, by decide, rfl⟩

theorem test_witness_mode_independent : modeDependent (.addVY 1 2) = false ∧ modeDependent (.ldBVX 1) = false := by decide

/-- F2: `1200` at 0x200. -/
theorem test_witness_settled : Settled (bytesAt State.reset 0x200 [0x12, 0x00]) :=
  ⟨rfl, 0x1200, 0x200, rfl, by decide, by decide⟩

/-- A step that changes the mode, and one that clears a fault. -/
theorem test_witness_mode_and_fault_change :
    field (·.mode) (step (events State.reset [.input (.reset .modern)])) = some .modern
      ∧ field (·.fault) (step (events { State.reset with fault := record .stackUnderflow 0x0200 none }
          [.input (.reset .modern)])) = some none := by decide

/-- `F30A` at 0x200, key 7 latched. -/
def waiting : State := { bytesAt State.reset 0x200 [0xF3, 0x0A] with wait := .keyLatched 7 }

/-- The invariant holds at reset and in a key wait, and the step from each is a next state. -/
theorem test_witness_invariant : Inv State.reset ∧ Inv waiting :=
  ⟨⟨by decide, by decide, by decide, by decide, List.forall_mem_nil _, by decide, fun _ h => by cases h⟩,
    ⟨by decide, by decide, by decide, by decide, List.forall_mem_nil _, by decide, fun _ _ => ⟨0xF30A, 3, rfl, by decide⟩⟩⟩

theorem test_witness_steps_of_the_invariant :
    field (·.pc) (step State.reset) = some 0x0202 ∧ field (·.pc) (step waiting) = some 0x0202 := by decide

end Sys2Proof.Tests
end

section
/-! The mode changes the meaning of no instruction but the seven (00_scope.md rule R2). Each other meaning commutes with
a change of the mode: where it has no branch, by unfolding, since neither its updates nor what it reads involve the mode;
where it has, the change does not move it to another branch. -/

namespace Sys2Proof.Machine

/-! ### The branches of 00EE, 2NNN and FX0A -/

theorem execRet_empty (s : State) (h : s.stack.getLast? = none) :
    execRet s = .next (raiseAt .ret s .stackUnderflow) := by
  simp only [execRet, h]

theorem execRet_top (s : State) (top : Word) (h : s.stack.getLast? = some top) :
    execRet s = .next { s with pc := top, stack := s.stack.dropLast } := by
  simp only [execRet, h]

theorem execCall_full (nnn : BitVec 12) (s : State) (h : s.params.stackDepth ≤ s.stack.length) :
    execCall nnn s = .next (raiseAt (.call nnn) s .stackOverflow) := if_pos h

theorem execCall_room (nnn : BitVec 12) (s : State) (h : ¬s.params.stackDepth ≤ s.stack.length) :
    execCall nnn s = .next (setPc (push (advance s) (advance s).pc) (addressOf nnn)) := if_neg h

theorem execLdVXK_noKey (x : Reg) (s : State) (hw : s.wait = .idle) (hk : firstPressed s.key = none) :
    execLdVXK x s = .next (rewind (advance s)) := by
  simp only [execLdVXK, hw, hk]

theorem execLdVXK_press (x : Reg) (s : State) (k : Key) (hw : s.wait = .idle) (hk : firstPressed s.key = some k) :
    execLdVXK x s = .next { rewind (advance s) with wait := .keyLatched k } := by
  simp only [execLdVXK, hw, hk]

theorem execLdVXK_held (x : Reg) (s : State) (k : Key) (hw : s.wait = .keyLatched k) (hk : s.key[k.val] = true) :
    execLdVXK x s = .next (rewind (advance s)) := by
  simp only [execLdVXK, hw, if_pos hk]

theorem execLdVXK_release (x : Reg) (s : State) (k : Key) (hw : s.wait = .keyLatched k)
    (hk : ¬s.key[k.val] = true) :
    execLdVXK x s = .next { setV (advance s) x (BitVec.ofNat 8 k.val) with wait := .idle } := by
  simp only [execLdVXK, hw, if_neg hk]

/-! ### A change of the mode -/

/-- The state with another mode. -/
def withMode (mode : Mode) (s : State) : State := { s with mode := mode }

theorem skipIf_withMode (mode : Mode) (s : State) (c : Bool) :
    skipIf (withMode mode s) c = withMode mode (skipIf s c) := by
  rw [skipIf_eq, skipIf_eq]
  rfl

/-- The outcome of a skip, for the skips that compare registers. -/
theorem next_skipIf_withMode (mode : Mode) (s : State) (c : Bool) :
    .next (skipIf (withMode mode s) c) = mapNext (withMode mode) (.next (skipIf s c)) :=
  congrArg Host.Outcome.next (skipIf_withMode mode s c)

theorem skipOnKey_withMode (mode : Mode) (i : Instr) (s : State) (vx : Byte) (level : Bool) :
    skipOnKey i (withMode mode s) vx level = mapNext (withMode mode) (skipOnKey i s vx level) :=
  skipOnKey_mapNext (withMode mode) i s vx level rfl (skipIf_withMode mode s) fun _ => rfl

theorem execRet_withMode (mode : Mode) (s : State) :
    execRet (withMode mode s) = mapNext (withMode mode) (execRet s) := by
  cases h : s.stack.getLast? with
  | none =>
    rw [execRet_empty s h, execRet_empty (withMode mode s) h]
    rfl
  | some top =>
    rw [execRet_top s top h, execRet_top (withMode mode s) top h]
    rfl

theorem execCall_withMode (mode : Mode) (nnn : BitVec 12) (s : State) :
    execCall nnn (withMode mode s) = mapNext (withMode mode) (execCall nnn s) := by
  by_cases h : s.params.stackDepth ≤ s.stack.length
  · rw [execCall_full nnn s h, execCall_full nnn (withMode mode s) h]
    rfl
  · rw [execCall_room nnn s h, execCall_room nnn (withMode mode s) h]
    rfl

theorem execDrw_withMode (mode : Mode) (x y : Reg) (n : BitVec 4) (s : State) :
    execDrw x y n (withMode mode s) = mapNext (withMode mode) (execDrw x y n s) :=
  withRange_mapNext (withMode mode) (.drw x y n) s _ _ _ _ rfl fun _ => rfl

theorem execLdBVX_withMode (mode : Mode) (x : Reg) (s : State) :
    execLdBVX x (withMode mode s) = mapNext (withMode mode) (execLdBVX x s) :=
  withRange_mapNext (withMode mode) (.ldBVX x) s _ _ _ _ rfl fun _ => rfl

theorem execLdVXK_withMode (mode : Mode) (x : Reg) (s : State) :
    execLdVXK x (withMode mode s) = mapNext (withMode mode) (execLdVXK x s) := by
  cases hw : s.wait with
  | idle =>
    cases hk : firstPressed s.key with
    | none =>
      rw [execLdVXK_noKey x s hw hk, execLdVXK_noKey x (withMode mode s) hw hk]
      rfl
    | some k =>
      rw [execLdVXK_press x s k hw hk, execLdVXK_press x (withMode mode s) k hw hk]
      rfl
  | keyLatched k =>
    by_cases hk : s.key[k.val] = true
    · rw [execLdVXK_held x s k hw hk, execLdVXK_held x (withMode mode s) k hw hk]
      rfl
    · rw [execLdVXK_release x s k hw hk, execLdVXK_release x (withMode mode s) k hw hk]
      rfl

/-- Every instruction that does not consult the mode commutes with a change of it. -/
theorem exec_withMode (mode : Mode) (i : Instr) (s : State) (hi : modeDependent i = false) :
    exec i (withMode mode s) = mapNext (withMode mode) (exec i s) := by
  cases i with
  | orVY | andVY | xorVY | shrVY | shlVY | storeVX | loadVX => cases hi
  | cls | jp | ldNN | addNN | ldVY | addVY | subVY | subnVY | ldI | jpV0 | rnd | ldVXDT | ldDTVX | ldSTVX | addIVX
  | ldFVX | nop => rfl
  | seNN | sneNN | seVY | sneVY => exact next_skipIf_withMode mode s _
  | skp | sknp => exact skipOnKey_withMode mode _ s _ _
  | ret => exact execRet_withMode mode s
  | call nnn => exact execCall_withMode mode nnn s
  | drw x y n => exact execDrw_withMode mode x y n s
  | ldBVX x => exact execLdBVX_withMode mode x s
  | ldVXK x => exact execLdVXK_withMode mode x s

/-- Settles O52, by the cases of the instruction. -/
theorem modeMattersForSevenOnly : Obligations.ModeMattersForSevenOnly :=
  fun i s mode hi => exec_withMode mode i s hi

end Sys2Proof.Machine
end

section
/-! Which elements of the state an instruction may change (10_state.md rule R37): the cases of the instructions with
branches, then one frame for every instruction. -/

namespace Sys2Proof.Machine

/-! ### All that an instruction with branches can do -/

/-- All 00EE can do: take the fault, or pop (40_flow.md rule R120). -/
theorem execRet_cases {s t : State} (h : execRet s = .next t) :
    t = raiseAt .ret s .stackUnderflow ∨ ∃ top ∈ s.stack, t = { s with pc := top, stack := s.stack.dropLast } := by
  cases hl : s.stack.getLast? with
  | none =>
    rw [execRet_empty s hl] at h
    cases h
    exact Or.inl rfl
  | some top =>
    rw [execRet_top s top hl] at h
    cases h
    exact Or.inr ⟨top, List.mem_of_getLast? hl, rfl⟩

/-- All 2NNN can do: take the fault, or push and jump (40_flow.md rule R122). -/
theorem execCall_cases {nnn : BitVec 12} {s t : State} (h : execCall nnn s = .next t) :
    t = raiseAt (.call nnn) s .stackOverflow
      ∨ s.stack.length < s.params.stackDepth ∧ t = setPc (push (advance s) (s.pc + 2)) (addressOf nnn) := by
  by_cases hd : s.params.stackDepth ≤ s.stack.length
  · rw [execCall_full nnn s hd] at h
    cases h
    exact Or.inl rfl
  · rw [execCall_room nnn s hd] at h
    cases h
    exact Or.inr ⟨Nat.lt_of_not_le hd, rfl⟩

/-- FX0A waits, with `pc` back at the instruction, or completes with the latch idle (45_keypad_timer_random.md rule
R193). -/
theorem execLdVXK_cases {x : Reg} {s t : State} (h : execLdVXK x s = .next t) :
    (∃ w, t = { s with wait := w }) ∨ ∃ b, t = { setV (advance s) x b with wait := .idle } := by
  cases hw : s.wait with
  | idle =>
    cases hk : firstPressed s.key with
    | none =>
      rw [execLdVXK_noKey x s hw hk, rewind_advance] at h
      cases h
      exact Or.inl ⟨s.wait, rfl⟩
    | some k =>
      rw [execLdVXK_press x s k hw hk, rewind_advance] at h
      cases h
      exact Or.inl ⟨_, rfl⟩
  | keyLatched k =>
    by_cases hk : s.key[k.val] = true
    · rw [execLdVXK_held x s k hw hk, rewind_advance] at h
      cases h
      exact Or.inl ⟨s.wait, rfl⟩
    · rw [execLdVXK_release x s k hw hk] at h
      cases h
      exact Or.inr ⟨_, rfl⟩

/-! ### The elements that an instruction may change -/

/-- The state with the elements that `i` may change taken from `u` (10_state.md rule R37). -/
def changedBy (i : Instr) (s u : State) : State :=
  match i with
  | .cls => { s with pc := u.pc, disp := u.disp, redraw := u.redraw }
  | .drw _ _ _ => { s with pc := u.pc, v := u.v, disp := u.disp, redraw := u.redraw, fault := u.fault }
  | .ret | .call _ => { s with pc := u.pc, stack := u.stack, fault := u.fault }
  | .jp _ | .jpV0 _ | .seNN _ _ | .sneNN _ _ | .seVY _ _ | .sneVY _ _ | .nop _ => { s with pc := u.pc }
  | .skp _ | .sknp _ => { s with pc := u.pc, fault := u.fault }
  | .ldNN _ _ | .addNN _ _ | .ldVY _ _ | .orVY _ _ | .andVY _ _ | .xorVY _ _ | .addVY _ _ | .subVY _ _ | .shrVY _ _
  | .subnVY _ _ | .shlVY _ _ | .ldVXDT _ => { s with pc := u.pc, v := u.v }
  | .ldVXK _ => { s with pc := u.pc, v := u.v, wait := u.wait }
  | .rnd _ _ => { s with pc := u.pc, v := u.v, draws := u.draws }
  | .ldI _ | .addIVX _ | .ldFVX _ => { s with pc := u.pc, index := u.index }
  | .ldDTVX _ => { s with pc := u.pc, dt := u.dt }
  | .ldSTVX _ => { s with pc := u.pc, st := u.st }
  | .ldBVX _ => { s with pc := u.pc, mem := u.mem, fault := u.fault }
  | .storeVX _ =>
    { s with
      pc := u.pc, mem := u.mem, fault := u.fault
      index := if s.mode = .legacy then u.index else s.index }
  | .loadVX _ =>
    { s with
      pc := u.pc, v := u.v, fault := u.fault
      index := if s.mode = .legacy then u.index else s.index }

/-- The transfers of FX55 and FX65 move `I` in legacy mode only. -/
theorem indexAfterTransfer_eq (s : State) (count : Nat) :
    indexAfterTransfer s count = if s.mode = .legacy then indexAfterTransfer s count else s.index := by
  cases h : s.mode <;> simp [indexAfterTransfer, h]

theorem next_skipIf_frame {s t : State} {c : Bool} (h : .next (skipIf s c) = (.next t : Result)) :
    t = { s with pc := t.pc } := by
  cases h
  rw [skipIf_eq]

/-- The side effect on VF touches no other element. -/
theorem legacyClearVF_frame (s : State) : legacyClearVF s = { s with v := (legacyClearVF s).v } := by
  unfold legacyClearVF
  split <;> rfl

theorem skipOnKey_frame {i : Instr} {s t : State} {vx : Byte} {level : Bool}
    (h : skipOnKey i s vx level = .next t) : t = { s with pc := t.pc, fault := t.fault } := by
  obtain ⟨c, rfl⟩ | rfl := skipOnKey_cases h
  · rw [skipIf_eq]
  · rfl

/-- Every instruction leaves the elements alone that it may not change. -/
theorem exec_frame {i : Instr} {s t : State} (h : exec i s = .next t) : t = changedBy i s t := by
  cases i with
  | cls | jp | jpV0 | nop | ldNN | addNN | ldVY | addVY | subVY | shrVY | subnVY | shlVY | ldVXDT | rnd | ldI | addIVX
  | ldFVX | ldDTVX | ldSTVX =>
    cases h
    rfl
  | seNN | sneNN | seVY | sneVY => exact next_skipIf_frame h
  | orVY | andVY | xorVY =>
    cases h
    rw [legacyClearVF_frame]
    rfl
  | skp | sknp => exact skipOnKey_frame h
  | ret => obtain rfl | ⟨top, -, rfl⟩ := execRet_cases h <;> rfl
  | call nnn => obtain rfl | ⟨-, rfl⟩ := execCall_cases h <;> rfl
  | ldVXK x => obtain ⟨w, rfl⟩ | ⟨b, rfl⟩ := execLdVXK_cases h <;> rfl
  | drw x y n => obtain ⟨-, rfl⟩ | ⟨-, rfl⟩ := withRange_cases h <;> rfl
  | ldBVX x => obtain ⟨-, rfl⟩ | ⟨-, rfl⟩ := withRange_cases h <;> rfl
  | storeVX x | loadVX x =>
    obtain ⟨-, rfl⟩ | ⟨-, rfl⟩ := withRange_cases h
    · simp only [changedBy]
      rw [← indexAfterTransfer_eq]
      rfl
    · simp only [changedBy, raiseAt_index, ite_self]
      rfl

theorem exec_params {i : Instr} {s t : State} (h : exec i s = .next t) : t.params = s.params := by
  rw [exec_frame h]
  cases i <;> rfl

theorem exec_image {i : Instr} {s t : State} (h : exec i s = .next t) : t.image = s.image := by
  rw [exec_frame h]
  cases i <;> rfl

theorem exec_mode {i : Instr} {s t : State} (h : exec i s = .next t) : t.mode = s.mode := by
  rw [exec_frame h]
  cases i <;> rfl

/-- Settles O51: the frame of each instruction names the elements it may change. -/
theorem eachElementHasItsWriters : Obligations.EachElementHasItsWriters := by
  intro i s t h
  obtain ⟨u, rfl⟩ : ∃ u, t = changedBy i s u := ⟨t, exec_frame h⟩
  cases i <;> simp +contextual [changedBy]

end Sys2Proof.Machine
end

section
/-! What a step of the whole machine can do, said once, and what follows for the mode and the fault record (10_state.md
rule R40). -/

namespace Sys2Proof.Machine

/-- The state with its oldest pending host event taken. -/
def taken (s : State) : State := { s with pending := s.pending.tail }

theorem taken_of_nil {s : State} (h : s.pending = []) : taken s = s := by
  obtain ⟨⟩ := s
  cases h
  rfl

/-- The state with the elements taken from `u` that the host and the tick change: timers, tone, keypad, redraw and
the model's own pause flag and queue (60_exceptions.md rules R234, R237, R241, R244). -/
def hostChanged (s u : State) : State :=
  { s with
    dt := u.dt, st := u.st, tone := u.tone, key := u.key, redraw := u.redraw, paused := u.paused
    pending := u.pending }

theorem render_frame (s : State) : render s = { s with redraw := (render s).redraw } := by
  unfold render
  split <;> rfl

/-- What one event of an input poll can do. -/
theorem performInput_cases {e : InputEvent} {s t : State} (h : performInput e s = .next t) :
    (∃ mode, e = .reset mode ∧ t = resetMachine mode s) ∨ t = hostChanged s t := by
  cases e with
  | reset mode =>
    cases h
    exact Or.inl ⟨mode, rfl, rfl⟩
  | quit => cases h
  | keyDown | keyUp | pause | resume =>
    cases h
    exact Or.inr rfl

/-- What one host event can do. -/
theorem perform_cases {e : HostEvent} {s t : State} (h : perform e s = .next t) :
    (s.fault = none ∧ engineStep s = .next t) ∨ (∃ mode, e = .input (.reset mode) ∧ t = resetMachine mode s)
      ∨ t = hostChanged s t := by
  cases e with
  | input e =>
    obtain ⟨mode, rfl, ht⟩ | ht := performInput_cases h
    · exact Or.inr (Or.inl ⟨mode, rfl, ht⟩)
    · exact Or.inr (Or.inr ht)
  | step =>
    simp only [perform] at h
    split at h
    · next hr =>
      simp only [running, Bool.and_eq_true, Option.isNone_iff_eq_none] at hr
      exact Or.inl ⟨hr.1, h⟩
    · cases h
      exact Or.inr (Or.inr rfl)
  | tick =>
    simp only [perform] at h
    split at h <;> cases h <;> exact Or.inr (Or.inr rfl)
  | render =>
    cases h
    rw [render_frame]
    exact Or.inr (Or.inr rfl)

/-- What the machine does with no host event pending. -/
theorem freeRun_cases {s t : State} (h : freeRun s = .next t) :
    (s.fault = none ∧ engineStep s = .next t) ∨ t = s := by
  unfold freeRun at h
  split at h
  · cases h
  · next hf =>
    split at h
    · cases h
      exact Or.inr rfl
    · exact Or.inl ⟨hf, h⟩

/-- All a step that answers a next state can do: an engine step of a machine without a fault, the reset command, or
what leaves the rest of the machine to the host and the tick. -/
theorem step_cases {s t : State} (h : step s = .next t) :
    (s.fault = none ∧ engineStep (taken s) = .next t)
      ∨ (∃ mode rest, s.pending = .input (.reset mode) :: rest ∧ t = resetMachine mode (taken s))
      ∨ t = hostChanged s t := by
  cases hp : s.pending with
  | nil =>
    simp only [step, hp] at h
    rw [taken_of_nil hp]
    obtain hs | rfl := freeRun_cases h
    · exact Or.inl hs
    · exact Or.inr (Or.inr rfl)
  | cons e rest =>
    have ht : taken s = { s with pending := rest } := by rw [taken, hp]; rfl
    simp only [step, hp] at h
    rw [← ht] at h
    obtain hs | ⟨mode, rfl, hm⟩ | hc := perform_cases h
    · exact Or.inl hs
    · exact Or.inr (Or.inl ⟨mode, rest, rfl, hm⟩)
    · exact Or.inr (Or.inr hc)

/-- All an engine step can do: take the fetch's fault, or run the instruction fetched. -/
theorem engineStep_cases {s t : State} (h : engineStep s = .next t) :
    (∃ a, t = raise s (.memoryBounds a) none) ∨ ∃ w, fetch s = .ok w ∧ exec (decodeWord w) s = .next t := by
  unfold engineStep at h
  split at h
  · cases h
    exact Or.inl ⟨_, rfl⟩
  · next w hw => exact Or.inr ⟨w, hw, h⟩

/-- An engine step changes neither the parameters nor the image nor the mode. -/
theorem engineStep_params_image_mode {s t : State} (h : engineStep s = .next t) :
    t.params = s.params ∧ t.image = s.image ∧ t.mode = s.mode := by
  obtain ⟨a, rfl⟩ | ⟨w, -, hx⟩ := engineStep_cases h
  · exact ⟨rfl, rfl, rfl⟩
  · exact ⟨exec_params hx, exec_image hx, exec_mode hx⟩

/-- Settles O55, by the cases of the step. -/
theorem modeAndFaultChangeOnlyByReset : Obligations.ModeAndFaultChangeOnlyByReset := by
  intro s t h
  obtain ⟨hf, hs⟩ | ⟨mode, rest, hp, rfl⟩ | ht := step_cases h
  · obtain ⟨hparams, himage, hmode⟩ := engineStep_params_image_mode hs
    exact ⟨hparams, himage, fun hne => absurd hmode hne, fun hne => absurd hf hne⟩
  · exact ⟨rfl, rfl, fun _ => ⟨mode, rest, hp⟩, fun _ _ => ⟨mode, rest, hp⟩⟩
  · rw [ht]
    exact ⟨rfl, rfl, fun hne => absurd rfl hne, fun _ hne => absurd rfl hne⟩

end Sys2Proof.Machine
end

section
/-! Which registers an instruction writes, and what a flag writer leaves in VF (10_state.md rules R21, R22). -/

namespace Sys2Proof.Machine

/-! ### Registers that are not named -/

/-- FX65 leaves the registers above `X` alone. -/
theorem getV_execLoadVX_above {x r : Reg} {s t : State} (h : execLoadVX x s = .next t) (hr : ¬r.val ≤ x.val) :
    getV t r = getV s r := by
  obtain ⟨-, rfl⟩ | ⟨-, rfl⟩ := withRange_cases h
  · exact (getElem_loadRegs _ _ _ _ _ r.val r.isLt).trans (if_neg (by omega))
  · rfl

/-- FX0A writes no register but `V[X]`. -/
theorem getV_execLdVXK_ne {x r : Reg} {s t : State} (h : execLdVXK x s = .next t) (hr : r ≠ x) :
    getV t r = getV s r := by
  obtain ⟨w, rfl⟩ | ⟨b, rfl⟩ := execLdVXK_cases h
  · rfl
  · exact getV_setV_ne (advance s) x r b hr

/-- DXYN writes no register but VF. -/
theorem getV_execDrw_ne {x y r : Reg} {n : BitVec 4} {s t : State} (h : execDrw x y n s = .next t) (hr : r ≠ vf) :
    getV t r = getV s r := by
  obtain ⟨-, rfl⟩ | ⟨-, rfl⟩ := withRange_cases h
  · exact getV_setV_ne (advance s) vf r _ hr
  · rfl

/-- Settles O49, by the cases of the instruction: each writes no register, one that it names, VF, or both. -/
theorem onlyNamedRegistersAndFlagChange : Obligations.OnlyNamedRegistersAndFlagChange := by
  intro i s t r h hn hv
  cases i with
  | cls | ret | jp | call | seNN | sneNN | seVY | sneVY | ldI | jpV0 | skp | sknp | ldDTVX | ldSTVX | addIVX | ldFVX
  | ldBVX | storeVX | nop => exact getV_congr (congrArg State.v (exec_frame h)) r
  | ldNN x | addNN x | ldVY x | ldVXDT x | rnd x =>
    cases h
    exact getV_setV_ne (advance s) x r _ (beq_eq_false_iff_ne.mp hn)
  | orVY x | andVY x | xorVY x =>
    cases h
    have hflag : ¬(s.mode = .legacy ∧ r = vf) := fun ⟨hm, hr⟩ => beq_eq_false_iff_ne.mp (hv hr) hm
    rw [getV_legacyClearVF, setV_mode, advance_mode, if_neg hflag]
    exact getV_setV_ne (advance s) x r _ (beq_eq_false_iff_ne.mp hn)
  | addVY x | subVY x | shrVY x | subnVY x | shlVY x =>
    cases h
    have hflag : r ≠ vf := fun hr => Bool.noConfusion (hv hr)
    rw [getV_setVThenVF, if_neg hflag, if_neg (beq_eq_false_iff_ne.mp hn)]
    rfl
  | drw => exact getV_execDrw_ne h fun hr => Bool.noConfusion (hv hr)
  | ldVXK => exact getV_execLdVXK_ne h (beq_eq_false_iff_ne.mp hn)
  | loadVX => exact getV_execLoadVX_above h (of_decide_eq_false hn)

/-! ### The flag -/

theorem flagByte_zero_or_one (b : Bool) : flagByte b = 0 ∨ flagByte b = 1 := by
  cases b
  · exact Or.inl rfl
  · exact Or.inr rfl

theorem vf_setVF_zero_or_one (s : State) (b : Bool) : getV (setVF s b) 15 = 0 ∨ getV (setVF s b) 15 = 1 := by
  rw [getV_setVF]
  exact flagByte_zero_or_one b

theorem vf_legacyClearVF (s : State) (h : s.mode = .legacy) : getV (legacyClearVF s) 15 = 0 := by
  rw [getV_legacyClearVF, if_pos ⟨h, rfl⟩]

/-- DXYN that completes leaves the collision flag in VF. -/
theorem vf_execDrw {x y : Reg} {n : BitVec 4} {s t : State} (h : execDrw x y n s = .next t) (ht : t.fault = none) :
    getV t 15 = 0 ∨ getV t 15 = 1 := by
  obtain ⟨-, rfl⟩ | ⟨-, rfl⟩ := withRange_cases h
  · exact vf_setVF_zero_or_one (advance s) _
  · cases ht

/-- Settles O50, by the cases of the table of VF writers: each writes VF last, a flag or the 0 of legacy mode. -/
theorem flagIsZeroOrOne : Obligations.FlagIsZeroOrOne := by
  intro i s t h hw _ ht
  cases i with
  | orVY | andVY | xorVY =>
    cases h
    exact Or.inl (vf_legacyClearVF _ (eq_of_beq hw))
  | addVY | subVY | shrVY | subnVY | shlVY =>
    cases h
    exact vf_setVF_zero_or_one _ _
  | drw => exact vf_execDrw h ht
  | _ => cases hw

end Sys2Proof.Machine
end

section
/-! The canonical form of memory adds nothing to its bytes (10_state.md rule R36). -/

namespace Sys2Proof.Machine

/-- The order of a canonical memory's entries: rising addresses. -/
def addressLt (c d : Host.Cell) : Prop := c.1 < d.1

/-- A memory with rising addresses reads, at an address it lists, the byte it lists. -/
theorem Memory.read_of_mem {m : Memory} (hm : m.Pairwise addressLt) {c : Host.Cell} (hc : c ∈ m) :
    m.read c.1 = c.2 := by
  induction m with
  | nil => cases hc
  | cons d rest ih =>
    obtain ⟨hd, hrest⟩ := List.pairwise_cons.mp hm
    obtain rfl | hc := List.mem_cons.mp hc
    · exact if_pos rfl
    · have hne : d.1 ≠ c.1 := Nat.ne_of_lt (hd c hc)
      exact (if_neg hne).trans (ih hrest hc)

/-- A canonical memory lists exactly the bytes that differ from what an unlisted address reads as. -/
theorem Memory.mem_iff_of_wf {m : Memory} (hm : m.wf) (c : Host.Cell) :
    c ∈ m ↔ m.read c.1 = c.2 ∧ c.2 ≠ unlistedByte c.1 := by
  obtain ⟨hsorted, hlisted⟩ := hm
  constructor
  · intro hc
    obtain ⟨-, hne⟩ := hlisted c hc
    exact ⟨Memory.read_of_mem hsorted hc, hne⟩
  · rintro ⟨hread, hne⟩
    by_contra hc
    refine hne (hread ▸ Memory.read_of_not_listed m c.1 fun d hd he => hc ?_)
    have hdc : d = c := Prod.ext he (by rw [← Memory.read_of_mem hsorted hd, he, hread])
    exact hdc ▸ hd

/-- Settles O27: the two lists have the same entries in the same order. -/
theorem canonicalMemoryIsUnique : Obligations.CanonicalMemoryIsUnique := by
  intro m n hm hn hread
  have hantisymm : Std.Antisymm addressLt := ⟨fun c d h h' => absurd h' (Nat.lt_asymm h)⟩
  have hirrefl : Std.Irrefl addressLt := ⟨fun c => Nat.lt_irrefl c.1⟩
  refine List.Pairwise.eq_of_mem_iff (r := addressLt) hm.1 hn.1 fun c => ?_
  rw [Memory.mem_iff_of_wf hm, Memory.mem_iff_of_wf hn, hread]

end Sys2Proof.Machine
end

section
/-! The invariant of the machine (10_state.md rules R24, R40): it holds at reset and of every loaded machine, and every
step keeps it. -/

namespace Sys2Proof.Machine

/-! ### Where an instruction leaves `pc` -/

/-- The values `pc` can have after an instruction: it stays (a fault, a wait), moves past one instruction or two, is
the target of a jump or of a jump by V0, or comes from the stack. -/
inductive NextPc (s : State) : Word → Prop where
  | stay : NextPc s s.pc
  | advance : NextPc s (s.pc + 2)
  | skip : NextPc s (s.pc + 2 + 2)
  | jump (nnn : BitVec 12) : NextPc s (addressOf nnn)
  | jumpV0 (nnn : BitVec 12) (b : Byte) : NextPc s (addressOf nnn + widen b)
  | ret (top : Word) (h : top ∈ s.stack) : NextPc s top

theorem nextPc_skipIf (s : State) (c : Bool) : NextPc s (skipIf s c).pc := by
  cases c
  · exact .advance
  · exact .skip

theorem nextPc_legacyClearVF (s : State) (x : Reg) (b : Byte) :
    NextPc s (legacyClearVF (setV (advance s) x b)).pc := by
  rw [legacyClearVF_pc]
  exact .advance

theorem nextPc_withRange {i : Instr} {s t run : State} {base count : Nat}
    (h : withRange i s base count run = .next t) (hrun : run.pc = s.pc + 2) : NextPc s t.pc := by
  obtain ⟨-, rfl⟩ | ⟨-, rfl⟩ := withRange_cases h
  · rw [hrun]
    exact .advance
  · exact .stay

theorem nextPc_skipOnKey {i : Instr} {s t : State} {vx : Byte} {level : Bool}
    (h : skipOnKey i s vx level = .next t) : NextPc s t.pc := by
  obtain ⟨c, rfl⟩ | rfl := skipOnKey_cases h
  · exact nextPc_skipIf s c
  · exact .stay

/-- Where each instruction leaves `pc`. -/
theorem exec_nextPc {i : Instr} {s t : State} (h : exec i s = .next t) : NextPc s t.pc := by
  cases i with
  | cls | nop | ldNN | addNN | ldVY | addVY | subVY | shrVY | subnVY | shlVY | ldVXDT | rnd | ldI | addIVX | ldFVX
  | ldDTVX | ldSTVX =>
    cases h
    exact .advance
  | orVY | andVY | xorVY =>
    cases h
    exact nextPc_legacyClearVF s _ _
  | seNN | sneNN | seVY | sneVY =>
    cases h
    exact nextPc_skipIf s _
  | skp | sknp => exact nextPc_skipOnKey h
  | drw | ldBVX | storeVX | loadVX => exact nextPc_withRange h rfl
  | jp nnn =>
    cases h
    exact .jump nnn
  | jpV0 nnn =>
    cases h
    exact .jumpV0 nnn _
  | ret =>
    obtain rfl | ⟨top, htop, rfl⟩ := execRet_cases h
    · exact .stay
    · exact .ret top htop
  | call nnn =>
    obtain rfl | ⟨-, rfl⟩ := execCall_cases h
    · exact .stay
    · exact .jump nnn
  | ldVXK =>
    obtain ⟨w, rfl⟩ | ⟨b, rfl⟩ := execLdVXK_cases h
    · exact .stay
    · exact .advance

/-- The bound of 10_state.md rule R24: after an instruction that was fetched, with every stack entry at most 0x1000. -/
theorem NextPc.bound {s : State} {w : Word} (h : NextPc s w) (hpc : s.pc.toNat + 1 < memSize)
    (hstack : ∀ e ∈ s.stack, e.toNat ≤ 0x1000) : w.toNat ≤ 0x10FE := by
  have hpc' : s.pc.toNat + 1 < 0x1000 := hpc
  cases h with
  | stay => omega
  | advance => bv_omega
  | skip => bv_omega
  | jump nnn =>
    have := nnn.isLt
    rw [toNat_addressOf]
    omega
  | jumpV0 nnn b =>
    have := nnn.isLt
    have := b.isLt
    rw [BitVec.toNat_add, toNat_addressOf, toNat_widen]
    omega
  | ret top htop => exact (hstack w htop).trans (by omega)

/-! ### The invariant at reset -/

/-- The invariant speaks of memory, image, parameters, stack, `pc` and latch alone. -/
theorem Inv.congr {s t : State} (hs : Inv s) (hmem : t.mem = s.mem) (himage : t.image = s.image)
    (hparams : t.params = s.params) (hstack : t.stack = s.stack) (hpc : t.pc = s.pc) (hwait : t.wait = s.wait) :
    Inv t where
  memWf := hmem ▸ hs.memWf
  imageWf := himage ▸ hs.imageWf
  paramsLegal := hparams ▸ hs.paramsLegal
  depth := by
    rw [hstack, hparams]
    exact hs.depth
  entries := hstack ▸ hs.entries
  pcBound := hpc ▸ hs.pcBound
  latched := by
    rw [hwait, fetch_congr hmem hpc]
    exact hs.latched

/-- A machine with the stack, `pc` and latch of reset meets the invariant, whatever its canonical memory and legal
parameters. -/
theorem inv_of_reset_values {t : State} (hmem : t.mem.wf) (himage : t.image.wf)
    (hparams : legalParams t.params = true) (hstack : t.stack = []) (hpc : t.pc = 0x200) (hwait : t.wait = .idle) :
    Inv t where
  memWf := hmem
  imageWf := himage
  paramsLegal := hparams
  depth := by simp [hstack]
  entries := by simp [hstack]
  pcBound := by simp [hpc]
  latched := by simp [hwait]

/-- Settles O56: State.reset is its own reset. -/
theorem resetStateMeetsTheInvariants : Obligations.ResetStateMeetsTheInvariants :=
  inv_of_reset_values Memory.wf_nil Memory.wf_nil (by decide) rfl rfl rfl

/-- Settles O57: the loader's memory is canonical and it takes legal parameters only. -/
theorem loadedMachineMeetsTheInvariants : Obligations.LoadedMachineMeetsTheInvariants := by
  intro rom font fill mode params t h
  obtain ⟨-, hdepth, rfl⟩ := (loadRom_eq_some_iff rom font fill mode params t).mp h
  have himage := wf_loadImage rom font fill
  exact inv_of_reset_values himage himage (decide_eq_true hdepth) rfl rfl rfl

/-- Settles O44, by the values of State.reset; its display is the blank one. -/
theorem resetLeavesTheStatedValues : Obligations.ResetLeavesTheStatedValues :=
  ⟨fun r => Vector.getElem_replicate r.isLt, rfl, rfl, rfl, pixel_blankDisplay, rfl⟩

/-- After the reset command the machine meets the invariant again: its memory is the image. -/
theorem inv_resetMachine {s : State} (hs : Inv s) (mode : Mode) : Inv (resetMachine mode s) :=
  inv_of_reset_values hs.imageWf hs.imageWf hs.paramsLegal rfl rfl rfl

/-! ### The invariant over a step -/

/-- FX33's stores keep memory canonical. -/
theorem wf_execLdBVX {x : Reg} {s t : State} (hs : s.mem.wf) (h : execLdBVX x s = .next t) : t.mem.wf := by
  obtain ⟨hr, rfl⟩ | ⟨-, rfl⟩ := withRange_cases h
  · have hr' : baseAddress s + 3 ≤ memSize := by omega
    exact Memory.wf_write _ _ _
      (Memory.wf_write _ _ _ (Memory.wf_write _ _ _ hs (by omega)) (by omega)) (by omega)
  · exact hs

/-- FX55's stores keep memory canonical. -/
theorem wf_execStoreVX {x : Reg} {s t : State} (hs : s.mem.wf) (h : execStoreVX x s = .next t) : t.mem.wf := by
  obtain ⟨hr, rfl⟩ | ⟨-, rfl⟩ := withRange_cases h
  · exact wf_storeRegs _ _ _ _ _ hs (by omega)
  · exact hs

/-- Every instruction keeps memory canonical: only FX33 and FX55 write it. -/
theorem exec_memWf {i : Instr} {s t : State} (hs : s.mem.wf) (h : exec i s = .next t) : t.mem.wf := by
  obtain ⟨hmem, -⟩ := eachElementHasItsWriters i s t h
  by_cases he : t.mem = s.mem
  · rwa [he]
  · obtain ⟨x, rfl⟩ | ⟨x, rfl⟩ := hmem he
    · exact wf_execLdBVX hs h
    · exact wf_execStoreVX hs h

/-- The stack of a state within its bounds (10_state.md rule R40(a), (b)). -/
def StackOk (s : State) : Prop := s.stack.length ≤ s.params.stackDepth ∧ ∀ e ∈ s.stack, e.toNat ≤ 0x1000

theorem stackOk_execRet {s t : State} (hs : StackOk s) (h : execRet s = .next t) : StackOk t := by
  obtain ⟨hlen, hent⟩ := hs
  obtain rfl | ⟨top, -, rfl⟩ := execRet_cases h
  · exact ⟨hlen, hent⟩
  · refine ⟨le_trans ?_ hlen, fun e he => hent e (List.mem_of_mem_dropLast he)⟩
    exact (List.dropLast_sublist s.stack).length_le

/-- 2NNN pushes the address after an instruction that was fetched, so at most 0x1000. -/
theorem stackOk_execCall {nnn : BitVec 12} {s t : State} (hs : StackOk s) (hpc : s.pc.toNat + 1 < memSize)
    (h : execCall nnn s = .next t) : StackOk t := by
  obtain ⟨hlen, hent⟩ := hs
  obtain rfl | ⟨hroom, rfl⟩ := execCall_cases h
  · exact ⟨hlen, hent⟩
  · constructor
    · simpa using hroom
    · have hpc' : s.pc.toNat + 1 < 0x1000 := hpc
      have hpush : (s.pc + 2).toNat ≤ 0x1000 := by bv_omega
      simpa [or_imp, forall_and] using ⟨hent, hpush⟩

/-- Every instruction that was fetched keeps the stack within its bounds: only 2NNN and 00EE write it. -/
theorem exec_stackOk {i : Instr} {s t : State} (hs : StackOk s) (hpc : s.pc.toNat + 1 < memSize)
    (h : exec i s = .next t) : StackOk t := by
  obtain ⟨-, hstack, -⟩ := eachElementHasItsWriters i s t h
  by_cases he : t.stack = s.stack
  · rw [StackOk, he, exec_params h]
    exact hs
  · obtain rfl | ⟨nnn, rfl⟩ := hstack he
    · exact stackOk_execRet hs h
    · exact stackOk_execCall hs hpc h

/-- Only FX0A changes the latch. -/
theorem exec_wait {i : Instr} {s t : State} (h : exec i s = .next t) : t.wait = s.wait ∨ ∃ x, i = .ldVXK x := by
  rw [exec_frame h]
  cases i with
  | ldVXK x => exact Or.inr ⟨x, rfl⟩
  | _ => exact Or.inl rfl

/-- With a latch after an instruction, that instruction was FX0A: it set the latch, or the latch was there before. -/
theorem fx0a_of_latched {w : Word} {s t : State} {k : Key} (hs : Inv s) (hw : fetch s = .ok w)
    (h : exec (decodeWord w) s = .next t) (hk : t.wait = .keyLatched k) : ∃ x, decodeWord w = .ldVXK x := by
  obtain he | hx := exec_wait h
  · obtain ⟨w', x, hw', hx⟩ := hs.latched k (he ▸ hk)
    cases hw.symm.trans hw'
    exact ⟨x, hx⟩
  · exact hx

/-- A latch after an instruction is that of an FX0A which waits: `pc` is still at it. -/
theorem exec_latched {w : Word} {s t : State} {k : Key} (hs : Inv s) (hw : fetch s = .ok w)
    (h : exec (decodeWord w) s = .next t) (hk : t.wait = .keyLatched k) :
    ∃ w x, fetch t = .ok w ∧ decodeWord w = .ldVXK x := by
  obtain ⟨x, hx⟩ := fx0a_of_latched hs hw h hk
  rw [hx] at h
  obtain ⟨latch, rfl⟩ | ⟨b, rfl⟩ := execLdVXK_cases h
  · exact ⟨w, x, hw, hx⟩
  · cases hk

/-- The instruction fetched keeps the invariant. -/
theorem exec_inv {w : Word} {s t : State} (hs : Inv s) (hw : fetch s = .ok w)
    (h : exec (decodeWord w) s = .next t) : Inv t := by
  obtain ⟨hpc, -⟩ := (fetch_ok_iff s w).mp hw
  obtain ⟨hdepth, hentries⟩ := exec_stackOk ⟨hs.depth, hs.entries⟩ hpc h
  exact {
    memWf := exec_memWf hs.memWf h
    imageWf := exec_image h ▸ hs.imageWf
    paramsLegal := exec_params h ▸ hs.paramsLegal
    depth := hdepth
    entries := hentries
    pcBound := (exec_nextPc h).bound hpc hs.entries
    latched := fun _ hk => exec_latched hs hw h hk }

theorem engineStep_inv {s t : State} (hs : Inv s) (h : engineStep s = .next t) : Inv t := by
  obtain ⟨a, rfl⟩ | ⟨w, hw, hx⟩ := engineStep_cases h
  · exact hs.congr rfl rfl rfl rfl rfl rfl
  · exact exec_inv hs hw hx

/-- Settles O58, by the cases of the step: an engine step, the reset command, or the host and the tick, which touch
nothing that the invariant speaks of. -/
theorem everyStepKeepsTheInvariants : Obligations.EveryStepKeepsTheInvariants := by
  intro s t hs h
  have htaken : Inv (taken s) := hs.congr rfl rfl rfl rfl rfl rfl
  obtain ⟨-, hstep⟩ | ⟨mode, rest, -, rfl⟩ | ht := step_cases h
  · exact engineStep_inv htaken hstep
  · exact inv_resetMachine htaken mode
  · rw [ht]
    exact hs.congr rfl rfl rfl rfl rfl rfl

end Sys2Proof.Machine
end

section
/-! The fetch (20_memory.md rule R64): its two bytes, its fault, and that it sees what FX55 stored. -/

namespace Sys2Proof.Machine

/-! ### The fetch's value and its fault -/

/-- With no host event pending, a machine neither faulted nor paused takes an engine step. -/
theorem step_idle (s : State) (hfault : s.fault = none) (hpaused : s.paused = false) (hpending : s.pending = []) :
    step s = engineStep s := by
  simp [step, freeRun, hfault, hpaused, hpending]

/-- An engine step that cannot fetch takes the fault, with no opcode recorded (60_exceptions.md rule R220). -/
theorem engineStep_outside (s : State) (h : memSize ≤ s.pc.toNat + 1) :
    engineStep s = .next (raise s (.memoryBounds (max s.pc.toNat memSize)) none) := by
  simp only [engineStep, fetch_outside s h]

/-- Settles O7: the fetch reads two bytes inside memory and faults outside. -/
theorem fetchIsBigEndianOrFaults : Obligations.FetchIsBigEndianOrFaults := by
  intro s
  constructor
  · intro hpc
    exact ⟨_, fetch_inside s hpc, toNat_wordOfBytes _ _⟩
  · intro hpc hfault hpaused hpending
    have houtside : memSize ≤ s.pc.toNat + 1 := Nat.succ_le_succ hpc
    rw [step_idle s hfault hpaused hpending, engineStep_outside s houtside]
    rfl

/-! ### A fetch of what FX55 stored -/

/-- FX55's stores leave `V[r]` at `base + r`. -/
theorem read_storeRegs_stored (v : Vector Byte 16) (base n r : Nat) (h : n ≤ 16) (m : Memory) (hr : r < n) :
    (storeRegs v base n h m).read (base + r) = v[r] := by
  have hstored : base ≤ base + r ∧ base + r - base < n := by omega
  rw [read_storeRegs, dif_pos hstored]
  simp only [Nat.add_sub_cancel_left]

/-- FX55 whose bytes are all in memory stores `V[r]`, for `r` up to `X`, at `I + r` (43_index_memory.md rule R164). -/
theorem execStoreVX_inside (x : Reg) (s : State) (h : baseAddress s + x.val < memSize) :
    ∃ t, execStoreVX x s = .next t ∧ ∀ r : Reg, r.val ≤ x.val → t.mem.read (baseAddress s + r.val) = getV s r :=
  ⟨_, withRange_inside _ _ _ _ _ (Or.inr h), fun _ hr => read_storeRegs_stored _ _ _ _ _ _ (Nat.lt_succ_of_le hr)⟩

/-- The fetch at an address inside memory, big-endian. -/
theorem fetch_at (s : State) (a : Nat) (h : a + 1 < memSize) :
    fetch { s with pc := BitVec.ofNat 16 a } = .ok (wordOfBytes (s.mem.read a) (s.mem.read (a + 1))) := by
  have hlt : a + 1 < 0x1000 := h
  have ha : (BitVec.ofNat 16 a).toNat = a := Nat.mod_eq_of_lt (by omega)
  rw [fetch_inside _ (by rwa [ha]), ha]

/-- Settles O26: the two bytes of the fetch are the registers FX55 stored there. -/
theorem storeIsSeenByTheFetch : Obligations.StoreIsSeenByTheFetch := by
  intro x s r q hq hqx hbound
  obtain ⟨t, hstore, hread⟩ := execStoreVX_inside x s hbound
  have hnext : baseAddress s + r.val + 1 = baseAddress s + q.val := by omega
  have hlow : baseAddress s + r.val + 1 < memSize := hnext ▸ lt_of_le_of_lt (Nat.add_le_add_left hqx _) hbound
  refine ⟨t, hstore, ?_⟩
  rw [fetch_at t _ hlow, hnext, hread r (by omega), hread q hqx]

end Sys2Proof.Machine
end

section
/-! The decoder and the encoder undo each other (30_encoding.md rules R91, R92, R95): a decoded word is built again from
its fields, and the words without an instruction are exactly those of 46_unrecognized.md rule R207. -/

namespace Sys2Proof

/-- The family that remains when the fifteen others are ruled out, the decoder's last arm. -/
theorem family_eq_F (f : BitVec 4) (h : f ∉ [0#4, 1, 2, 3, 4, 5, 6, 7, 8, 9, 10, 11, 12, 13, 14]) : f = 0xF#4 := by
  revert f; decide

/-! ### Encoding a decoded word gives it back -/

theorem encode_decodeFamily0 (w : Word) : encode (decodeFamily0 w) = w := by
  unfold decodeFamily0
  split
  · next h => rw [h]; rfl
  · split
    · next h => rw [h]; rfl
    · rfl

theorem encode_decodeFamily8 (w : Word) (hf : familyField w = 0x8#4) : encode (decodeFamily8 w) = w := by
  have hw := encodeXYN_fields w
  unfold decodeFamily8
  split <;> simp_all only [encode]

theorem encode_decodeFamilyE (w : Word) (hf : familyField w = 0xE#4) : encode (decodeFamilyE w) = w := by
  have hw := encodeXNN_fields w
  unfold decodeFamilyE
  split <;> simp_all only [encode]

theorem encode_decodeFamilyF (w : Word) (hf : familyField w = 0xF#4) : encode (decodeFamilyF w) = w := by
  have hw := encodeXNN_fields w
  unfold decodeFamilyF
  split <;> simp_all only [encode]

/-- Each family's arm takes its operands from the fields of the family's format, and those fields make up the word
(30_encoding.md rules R91, R92). -/
theorem encode_decodeWord (w : Word) : encode (decodeWord w) = w := by
  have hnnn := encodeNNN_fields w
  have hxnn := encodeXNN_fields w
  have hxyn := encodeXYN_fields w
  unfold decodeWord
  split
  case h_1 => exact encode_decodeFamily0 w
  case h_6 | h_10 => split <;> simp_all only [encode]
  case h_9 hf => exact encode_decodeFamily8 w hf
  case h_15 hf => exact encode_decodeFamilyE w hf
  case h_16 => exact encode_decodeFamilyF w (family_eq_F _ (by simp_all))
  all_goals simp_all only [encode]

/-- The no-op carries the word it was decoded from. -/
theorem word_of_decodeWord_nop {w w' : Word} (h : decodeWord w = .nop w') : w' = w := by
  have hw := encode_decodeWord w
  rwa [h] at hw

/-! ### Which words decode to the no-op -/

theorem mem_definedN8 (n : BitVec 4) :
    n.toNat ∈ definedN8 ↔ n ∈ [0x0#4, 0x1#4, 0x2#4, 0x3#4, 0x4#4, 0x5#4, 0x6#4, 0x7#4, 0xE#4] := by
  revert n; decide

theorem mem_definedNNE (nn : Byte) : nn.toNat ∈ definedNNE ↔ nn ∈ [0x9E#8, 0xA1#8] := by
  revert nn; decide

theorem mem_definedNNF (nn : Byte) :
    nn.toNat ∈ definedNNF ↔ nn ∈ [0x07#8, 0x0A#8, 0x15#8, 0x18#8, 0x1E#8, 0x29#8, 0x33#8, 0x55#8, 0x65#8] := by
  revert nn; decide

theorem decodeFamily0_eq_nop (w : Word) : decodeFamily0 w = .nop w ↔ w ≠ 0x00E0#16 ∧ w ≠ 0x00EE#16 := by
  unfold decodeFamily0
  split
  · simp_all
  · split <;> simp_all

theorem decodeFamily8_eq_nop (w : Word) : decodeFamily8 w = .nop w ↔ (nField w).toNat ∉ definedN8 := by
  rw [mem_definedN8]
  unfold decodeFamily8
  split <;> simp_all

theorem decodeFamilyE_eq_nop (w : Word) : decodeFamilyE w = .nop w ↔ (nnField w).toNat ∉ definedNNE := by
  rw [mem_definedNNE]
  unfold decodeFamilyE
  split <;> simp_all

theorem decodeFamilyF_eq_nop (w : Word) : decodeFamilyF w = .nop w ↔ (nnField w).toNat ∉ definedNNF := by
  rw [mem_definedNNF]
  unfold decodeFamilyF
  split <;> simp_all

/-- The classes of 46_unrecognized.md rule R207 in the decoder's fields. -/
theorem unrecognized_iff_fields (w : Word) :
    unrecognized w = true ↔
      familyField w = 0x0#4 ∧ w ≠ 0x00E0#16 ∧ w ≠ 0x00EE#16
        ∨ familyField w = 0x5#4 ∧ nField w ≠ 0#4
        ∨ familyField w = 0x8#4 ∧ (nField w).toNat ∉ definedN8
        ∨ familyField w = 0x9#4 ∧ nField w ≠ 0#4
        ∨ familyField w = 0xE#4 ∧ (nnField w).toNat ∉ definedNNE
        ∨ familyField w = 0xF#4 ∧ (nnField w).toNat ∉ definedNNF := by
  simp [unrecognized, ← BitVec.toNat_inj, toNat_familyField, toNat_nField, toNat_nnField, or_assoc, and_assoc]

theorem unrecognized_iff_decodeWord_nop (w : Word) : unrecognized w = true ↔ decodeWord w = .nop w := by
  rw [unrecognized_iff_fields]
  unfold decodeWord
  split
  case h_1 hf => simp [hf, decodeFamily0_eq_nop]
  case h_6 hf | h_10 hf => split <;> simp_all
  case h_9 hf => simp [hf, decodeFamily8_eq_nop]
  case h_15 hf => simp [hf, decodeFamilyE_eq_nop]
  case h_16 =>
    have hf : familyField w = 0xF#4 := family_eq_F _ (by simp_all)
    simp [hf, decodeFamilyF_eq_nop]
  all_goals simp_all

/-! ### The two round trips -/

/-- Settles O2: the decoder reads each field where the encoder put it; a no-op's word is one no row selects. -/
theorem decodeUndoesEncode : Obligations.DecodeUndoesEncode := by
  intro i hi
  cases i with
  | nop w => exact (unrecognized_iff_decodeWord_nop w).mp hi
  | cls | ret => rfl
  | _ => simp [encode, decodeWord, decodeFamily8, decodeFamilyE, decodeFamilyF]

/-- Settles O3: the format's fields make up the word, and a word without an instruction is unrecognized. -/
theorem encodeUndoesDecode : Obligations.EncodeUndoesDecode := by
  intro w
  refine ⟨encode_decodeWord w, ?_⟩
  cases hi : decodeWord w with
  | nop w' =>
    obtain rfl := word_of_decodeWord_nop hi
    exact (unrecognized_iff_decodeWord_nop _).mpr hi
  | _ => rfl

/-- Settles O1, by evaluation of the decoder on the words written out. -/
theorem sampleWordsDecode : Obligations.SampleWordsDecode := by
  unfold Obligations.SampleWordsDecode
  decide

end Sys2Proof
end

section
/-! The opcode map against the decoder (30_encoding.md rules R94, R95, R97, R101): the selecting digits of a word decide
its row, and a row's mask keeps them. -/

namespace Sys2Proof.Laws.RowSelects

/-- The word of every instruction matches the instruction's row. -/
theorem statement : ∀ i : Instr, Statement i
  | .cls => cls
  | .ret => ret
  | .jp _ => jp _
  | .call _ => call _
  | .seNN _ _ => seNN _ _
  | .sneNN _ _ => sneNN _ _
  | .seVY _ _ => seVY _ _
  | .ldNN _ _ => ldNN _ _
  | .addNN _ _ => addNN _ _
  | .ldVY _ _ => ldVY _ _
  | .orVY _ _ => orVY _ _
  | .andVY _ _ => andVY _ _
  | .xorVY _ _ => xorVY _ _
  | .addVY _ _ => addVY _ _
  | .subVY _ _ => subVY _ _
  | .shrVY _ _ => shrVY _ _
  | .subnVY _ _ => subnVY _ _
  | .shlVY _ _ => shlVY _ _
  | .sneVY _ _ => sneVY _ _
  | .ldI _ => ldI _
  | .jpV0 _ => jpV0 _
  | .rnd _ _ => rnd _ _
  | .drw _ _ _ => drw _ _ _
  | .skp _ => skp _
  | .sknp _ => sknp _
  | .ldVXDT _ => ldVXDT _
  | .ldVXK _ => ldVXK _
  | .ldDTVX _ => ldDTVX _
  | .ldSTVX _ => ldSTVX _
  | .addIVX _ => addIVX _
  | .ldFVX _ => ldFVX _
  | .ldBVX _ => ldBVX _
  | .storeVX _ => storeVX _
  | .loadVX _ => loadVX _
  | .nop _ => nop _

end Sys2Proof.Laws.RowSelects

namespace Sys2Proof.Machine

/-- The row of a decoded word depends on the family and on the family's sub-selector alone (30_encoding.md rule R94). -/
theorem rowOf_decodeWord_congr {w v : Word} (hf : familyField w = familyField v)
    (h0 : familyField v = 0#4 → w = v)
    (hn : familyField v ∈ [0x5#4, 0x8#4, 0x9#4] → nField w = nField v)
    (hnn : familyField v ∈ [0xE#4, 0xF#4] → nnField w = nnField v) :
    rowOf (decodeWord w) = rowOf (decodeWord v) := by
  unfold decodeWord
  rw [hf]
  split
  case h_1 h => rw [h0 h]
  case h_6 h | h_10 h =>
    rw [hn (by simp [h])]
    split <;> rfl
  case h_9 h =>
    unfold decodeFamily8
    rw [hn (by simp [h])]
    split <;> rfl
  case h_15 h =>
    unfold decodeFamilyE
    rw [hnn (by simp [h])]
    split <;> rfl
  case h_16 =>
    have h : familyField v = 0xF#4 := family_eq_F _ (by simp_all)
    unfold decodeFamilyF
    rw [hnn (by simp [h])]
    split <;> rfl
  all_goals rfl

/-- Words that agree under a mask agree under a mask with fewer digits. -/
theorem and_eq_and_of_submask {w v m c : Word} (hc : m &&& c = c) (h : w &&& m = v &&& m) : w &&& c = v &&& c := by
  rw [← hc, ← BitVec.and_assoc, ← BitVec.and_assoc, h]

theorem familyField_congr {w v : Word} (h : w &&& 0xF000#16 = v &&& 0xF000#16) : familyField w = familyField v := by
  simpa [mask_family] using congrArg familyField h

theorem nField_congr {w v : Word} (h : w &&& 0xF00F#16 = v &&& 0xF00F#16) : nField w = nField v := by
  simpa [mask_family_n] using congrArg nField h

theorem nnField_congr {w v : Word} (h : w &&& 0xF0FF#16 = v &&& 0xF0FF#16) : nnField w = nnField v := by
  simpa [mask_family_nn] using congrArg nnField h

/-- The mask `m` keeps the digits that select an instruction in the family of the word `v` (30_encoding.md rule
R94). -/
abbrev KeepsSelector (m v : Word) : Prop :=
  m &&& 0xF000#16 = 0xF000#16
    ∧ (familyField v = 0#4 → m = 0xFFFF#16)
    ∧ (familyField v ∈ [0x5#4, 0x8#4, 0x9#4] → m &&& 0xF00F#16 = 0xF00F#16)
    ∧ (familyField v ∈ [0xE#4, 0xF#4] → m &&& 0xF0FF#16 = 0xF0FF#16)

theorem rowOf_decodeWord_of_mask {w v m : Word} (hm : KeepsSelector m v) (h : w &&& m = v &&& m) :
    rowOf (decodeWord w) = rowOf (decodeWord v) := by
  obtain ⟨hfamily, hall, hn, hnn⟩ := hm
  apply rowOf_decodeWord_congr
  · exact familyField_congr (and_eq_and_of_submask hfamily h)
  · intro h0
    rwa [hall h0, mask_all, mask_all] at h
  · exact fun hv => nField_congr (and_eq_and_of_submask (hn hv) h)
  · exact fun hv => nnField_congr (and_eq_and_of_submask (hnn hv) h)

/-- Each row's mask keeps the selecting digits of its match, which decodes to an instruction of that row. -/
theorem opcodeMap_rows : ∀ k, k < 34 →
    KeepsSelector (opcodeMap.getD k (0, 0)).1 (opcodeMap.getD k (0, 0)).2
      ∧ (opcodeMap.getD k (0, 0)).2 &&& (opcodeMap.getD k (0, 0)).1 = (opcodeMap.getD k (0, 0)).2
      ∧ rowOf (decodeWord (opcodeMap.getD k (0, 0)).2) = some k := by
  decide

/-- A word that matches a row decodes to an instruction of that row. -/
theorem rowOf_decodeWord_of_match {w : Word} {k : Nat} (hk : k < 34)
    (h : w &&& (opcodeMap.getD k (0, 0)).1 = (opcodeMap.getD k (0, 0)).2) : rowOf (decodeWord w) = some k := by
  obtain ⟨hm, hv, hrow⟩ := opcodeMap_rows k hk
  rw [rowOf_decodeWord_of_mask hm (h.trans hv.symm), hrow]

theorem match_iff_rowOf_decodeWord (w : Word) {k : Nat} (hk : k < 34) :
    w &&& (opcodeMap.getD k (0, 0)).1 = (opcodeMap.getD k (0, 0)).2 ↔ rowOf (decodeWord w) = some k := by
  refine ⟨rowOf_decodeWord_of_match hk, fun h => ?_⟩
  have hmatch := Laws.RowSelects.statement (decodeWord w) k h
  rwa [encode_decodeWord] at hmatch

/-- Every instruction but the no-op belongs to one of the 34 rows. -/
theorem rowOf_cases (i : Instr) : (∃ k, k < 34 ∧ rowOf i = some k) ∨ ∃ w, i = .nop w := by
  cases i with
  | nop w => exact Or.inr ⟨w, rfl⟩
  | _ => exact Or.inl ⟨_, by decide, rfl⟩

/-- Settles O4: a row's match is the same as its instruction's, and a word without a row is left to the no-op. -/
theorem everyWordSelectsOneRow : Obligations.EveryWordSelectsOneRow := by
  intro w
  refine ⟨fun k hk => match_iff_rowOf_decodeWord w hk, fun hnone => ?_⟩
  obtain ⟨k, hk, hrow⟩ | ⟨w', hnop⟩ := rowOf_cases (decodeWord w)
  · exact absurd ((match_iff_rowOf_decodeWord w hk).mpr hrow) (hnone k hk)
  · rw [hnop, word_of_decodeWord_nop hnop]

end Sys2Proof.Machine
end

section
/-! The step runs the instruction that the two bytes at `pc` decode to (30_encoding.md rules R90, R93), and the state
prepared for a table row's word holds that word there. -/

namespace Sys2Proof.Machine

theorem engineStep_of_fetch {s : State} {w : Word} (h : fetch s = .ok w) : engineStep s = exec (decodeWord w) s := by
  simp only [engineStep, h]

/-- A step strobe at the head of the queue is an engine step of a machine neither faulted nor paused. -/
theorem step_strobe (s : State) (rest : List HostEvent) (hfault : s.fault = none) (hpaused : s.paused = false)
    (hpending : s.pending = .step :: rest) : step s = engineStep { s with pending := rest } := by
  simp [step, perform, running, hfault, hpaused, hpending]

theorem decodeBytes_pair {hi lo : Byte} {i : Instr} (h : decodeBytes [hi, lo] = .ok (i, [])) :
    decodeWord (wordOfBytes hi lo) = i := by
  cases h
  rfl

/-- Settles O6: the fetched word is that of the two bytes, whatever the queue holds. -/
theorem stepRunsTheDecodedInstruction : Obligations.StepRunsTheDecodedInstruction := by
  intro s i _ hpc hbytes hfault hpaused
  have hdecode := decodeBytes_pair hbytes
  have hfetch := fetch_inside s hpc
  constructor
  · intro hpending
    rw [step_idle s hfault hpaused hpending, engineStep_of_fetch hfetch, hdecode]
  · intro rest hpending
    have hfetch' : fetch { s with pending := rest } = _ := hfetch
    rw [step_strobe s rest hfault hpaused hpending, engineStep_of_fetch hfetch', hdecode]

/-! ### The prepared state -/

@[simp] theorem tableWord_16 (w : Nat) : tableWord 16 w = BitVec.ofNat 16 w := by
  apply BitVec.eq_of_toNat_eq
  simp [tableWord]

theorem decodeTableWord_16 (w : Nat) : decodeTableWord 16 w = some (decodeWord (BitVec.ofNat 16 w)) := by
  simp [decodeTableWord, decodeBytes]

theorem read_placeWord_high (m : Memory) (a : Nat) (w : Word) : (placeWord m a w).read a = highByte w := by
  rw [placeWord, Memory.read_write_ne _ _ _ _ (by omega), Memory.read_write_same]

theorem read_placeWord_low (m : Memory) (a : Nat) (w : Word) : (placeWord m a w).read (a + 1) = lowByte w :=
  Memory.read_write_same _ _ _

theorem fetchablePc_inside (pc : Word) : (fetchablePc pc).toNat + 1 < memSize := by
  unfold fetchablePc
  split
  · assumption
  · decide

theorem fetch_withNextWord (s : State) (w : Word) : fetch (withNextWord s w) = .ok w := by
  rw [fetch_inside _ (fetchablePc_inside s.pc)]
  simp only [withNextWord, read_placeWord_high, read_placeWord_low, wordOfBytes_highByte_lowByte]

theorem step_withNextWord (s : State) (w : Word) :
    step (withNextWord s w) = exec (decodeWord w) (withNextWord s w) := by
  rw [step_idle _ rfl rfl rfl, engineStep_of_fetch (fetch_withNextWord s w)]

/-- Settles O8: the word stands at `pc` in the prepared state, and nothing comes before its fetch. -/
theorem preparedWordRunsNext : Obligations.PreparedWordRunsNext := by
  intro s w
  refine ⟨decodeTableWord_16 w, ?_⟩
  rw [State.withFetchWord, tableWord_16, step_withNextWord]

end Sys2Proof.Machine
end

section
/-! Control transfer (40_flow.md rules R120 to R123): where the jumps go, the two answers of 2NNN and of 00EE, and runs of
calls and returns that match. -/

namespace Sys2Proof.Machine

/-! ### Jumps -/

/-- The target of BNNN is not reduced: the greatest is 0xFFF + 0xFF. -/
theorem toNat_addressOf_add_widen (nnn : BitVec 12) (b : Byte) :
    (addressOf nnn + widen b).toNat = nnn.toNat + b.toNat := by
  have := nnn.isLt
  have := b.isLt
  rw [BitVec.toNat_add, toNat_addressOf, toNat_widen]
  omega

/-- Settles O10: both meanings are one update of `pc`, with the target as a number. -/
theorem jumpsSetOnlyPc : Obligations.JumpsSetOnlyPc := by
  intro nnn s
  constructor
  · exact ⟨setPc (advance s) (addressOf nnn), rfl, rfl, toNat_addressOf nnn⟩
  · exact ⟨setPc (advance s) (addressOf nnn + widen (getV s 0)), rfl, rfl, toNat_addressOf_add_widen nnn _⟩

/-! ### Calls and returns -/

theorem exec_call_of_lt (nnn : BitVec 12) {s : State} (h : s.stack.length < s.params.stackDepth) :
    exec (.call nnn) s = .next { s with pc := addressOf nnn, stack := s.stack ++ [s.pc + 2] } :=
  execCall_room nnn s (Nat.not_le_of_lt h)

theorem exec_ret_of_stack {s : State} {below : List Word} {top : Word} (h : s.stack = below ++ [top]) :
    exec .ret s = .next { s with pc := top, stack := below } := by
  have hlast : s.stack.getLast? = some top := by rw [h, List.getLast?_concat]
  have hbelow : s.stack.dropLast = below := by rw [h, List.dropLast_concat]
  rw [← hbelow]
  exact execRet_top s top hlast

/-- Settles O11: the two branches of 2NNN. -/
theorem callPushesOrOverflows : Obligations.CallPushesOrOverflows := by
  intro nnn s
  constructor
  · intro hroom
    exact ⟨_, exec_call_of_lt nnn hroom, rfl, toNat_addressOf nnn⟩
  · intro hfull
    exact execCall_full nnn s hfull.ge

/-- Settles O12: the two branches of 00EE. -/
theorem returnPopsOrUnderflows : Obligations.ReturnPopsOrUnderflows := by
  intro s
  constructor
  · intro below top hstack
    exact exec_ret_of_stack hstack
  · intro hempty
    have hnone : s.stack.getLast? = none := by rw [hempty, List.getLast?_nil]
    exact execRet_empty s hnone

/-! ### Runs of instructions -/

theorem execAll_cons_of_next {i : Instr} {s t : State} (is : List Instr) (h : exec i s = .next t) :
    execAll (i :: is) s = execAll is t := by
  simp only [execAll, h]

/-- A run of two lists whose first list ends in a next state. -/
theorem execAll_append_of_next {is : List Instr} {s t : State} (js : List Instr) (h : execAll is s = .next t) :
    execAll (is ++ js) s = execAll js t := by
  induction is generalizing s with
  | nil =>
    cases h
    rfl
  | cons i is ih =>
    cases hi : exec i s with
    | next u =>
      rw [execAll_cons_of_next is hi] at h
      rw [List.cons_append, execAll_cons_of_next (is ++ js) hi, ih h]
    | fault r => simp [execAll, hi] at h
    | refused r => simp [execAll, hi] at h

/-- A call, a body that changes nothing but `pc`, and a return end after the call. -/
theorem execAll_call_body_ret (nnn : BitVec 12) {body : List Instr} {s : State} {p : Word}
    (hroom : s.stack.length < s.params.stackDepth)
    (hbody : execAll body { s with pc := addressOf nnn, stack := s.stack ++ [s.pc + 2] }
      = .next { s with pc := p, stack := s.stack ++ [s.pc + 2] }) :
    execAll (.call nnn :: (body ++ [.ret])) s = .next { s with pc := s.pc + 2 } := by
  rw [execAll_cons_of_next _ (exec_call_of_lt nnn hroom), execAll_append_of_next _ hbody]
  exact execAll_cons_of_next [] (exec_ret_of_stack rfl)

/-- Matching calls and returns change `pc` only. The empty run, which leaves `pc` too, is the innermost body. -/
theorem execAll_calls_rets (targets : List (BitVec 12)) (s : State)
    (hfit : s.stack.length + targets.length ≤ s.params.stackDepth) :
    execAll (targets.map Instr.call ++ List.replicate targets.length .ret) s
      = .next { s with pc := if targets = [] then s.pc else s.pc + 2 } := by
  induction targets generalizing s with
  | nil => rfl
  | cons nnn targets ih =>
    rw [List.length_cons] at hfit
    have hroom : s.stack.length < s.params.stackDepth := by omega
    have hfit' : (s.stack ++ [s.pc + 2]).length + targets.length ≤ s.params.stackDepth := by
      rw [List.length_append, List.length_singleton]
      omega
    have hbody := ih { s with pc := addressOf nnn, stack := s.stack ++ [s.pc + 2] } hfit'
    rw [List.map_cons, List.length_cons, List.replicate_succ', List.cons_append, ← List.append_assoc,
      if_neg (List.cons_ne_nil nnn targets)]
    exact execAll_call_body_ret nnn hroom hbody

/-- Settles O13: each call and its return enclose the calls and returns of the rest. -/
theorem nestedCallsReturn : Obligations.NestedCallsReturn := by
  intro targets s hne hfit
  rw [execAll_calls_rets targets s hfit, if_neg hne]

end Sys2Proof.Machine
end

section
/-! The skips that compare registers (41_skip.md rules R130 to R133): a skip as one update of `pc`, with the condition as
a proposition. -/

namespace Sys2Proof.Machine

/-- The skip on a test `c` of `p`: two advances by 2 are one by 4, whatever the address wraps to. -/
theorem skipIf_of_iff (s : State) {c : Bool} {p : Prop} [Decidable p] (h : c = true ↔ p) :
    skipIf s c = { s with pc := if p then s.pc + 4 else s.pc + 2 } := by
  have htwice : s.pc + 2#16 + 2#16 = s.pc + 4#16 := BitVec.add_assoc s.pc 2 2
  rw [skipIf_eq, htwice, if_congr h rfl rfl]
  rfl

/-- Settles O14: each of the four meanings is a skip, on the test that its rule names. -/
theorem skipsCompareRegisters : Obligations.SkipsCompareRegisters := by
  intro x y nn s
  refine ⟨?seNN, ?sneNN, ?seVY, ?sneVY⟩
  case seNN | seVY => exact congrArg Host.Outcome.next (skipIf_of_iff s beq_iff_eq)
  case sneNN | sneVY => exact congrArg Host.Outcome.next (skipIf_of_iff s bne_iff_ne)

end Sys2Proof.Machine
end

section
/-! Register load, arithmetic, logic and shifts (42_alu.md rules R140 to R150): the three kinds of register update, each
with its whole frame, and the results and flags as numbers. -/

namespace Sys2Proof.Machine

/-! ### The three kinds of register update

`φ` is the view of a byte in which the registers are compared: the byte itself, a natural number or an integer. -/

section
variable {α : Type} (φ : Byte → α)

/-- A write of `V[X]` alone. -/
theorem next_setV_advance (s : State) (x : Reg) {b : Byte} {m : α} (hb : φ b = m) :
    ∃ t, (.next (setV (advance s) x b) : Result) = .next t ∧ t = { s with pc := s.pc + 2, v := t.v }
      ∧ ∀ r, φ (getV t r) = if r = x then m else φ (getV s r) := by
  refine ⟨_, rfl, rfl, fun r => ?_⟩
  rw [getV_setV, apply_ite φ, hb, getV_advance]

/-- A result, then a flag that VF keeps. -/
theorem next_setVThenVF_advance (s : State) (x : Reg) {b : Byte} {flag : Bool} {m n : α} (hb : φ b = m)
    (hflag : φ (flagByte flag) = n) :
    ∃ t, (.next (setVThenVF (advance s) x b flag) : Result) = .next t ∧ t = { s with pc := s.pc + 2, v := t.v }
      ∧ ∀ r, φ (getV t r) = if r = 15 then n else if r = x then m else φ (getV s r) := by
  refine ⟨_, rfl, rfl, fun r => ?_⟩
  rw [getV_setVThenVF, apply_ite φ, apply_ite φ, hb, hflag, getV_advance, vf]

end

/-- A result, then the 0 that VF keeps in legacy mode. -/
theorem next_legacyClearVF_setV_advance (s : State) (x : Reg) (b : Byte) :
    ∃ t, (.next (legacyClearVF (setV (advance s) x b)) : Result) = .next t ∧ t = { s with pc := s.pc + 2, v := t.v }
      ∧ ∀ r, getV t r = if s.mode = .legacy ∧ r = 15 then 0 else if r = x then b else getV s r := by
  refine ⟨_, rfl, legacyClearVF_frame _, fun r => ?_⟩
  rw [getV_legacyClearVF, getV_setV, setV_mode, advance_mode, getV_advance, vf]

/-! ### Results and flags as numbers -/

theorem toNat_flagByte_decide (p : Prop) [Decidable p] : (flagByte (decide p)).toNat = if p then 1 else 0 := by
  by_cases h : p <;> simp [flagByte, h]

theorem toNat_flagByte_lowBit (b : Byte) : (flagByte (lowBit b)).toNat = b.toNat % 2 := by
  rw [lowBit_eq, toNat_flagByte_decide]
  split <;> omega

theorem toNat_flagByte_highBit (b : Byte) : (flagByte (highBit b)).toNat = b.toNat / 128 := by
  have := b.isLt
  rw [highBit_eq, toNat_flagByte_decide]
  split <;> omega

/-- The no-borrow flag as the integer that VF holds. -/
theorem intCast_flagByte_noBorrow (a b : Byte) :
    ((flagByte (noBorrow a b)).toNat : Int) = if b.toNat ≤ a.toNat then 1 else 0 := by
  rw [noBorrow, toNat_flagByte_decide, Nat.cast_ite, Nat.cast_one, Nat.cast_zero]

/-- The difference modulo 256 is the remainder of the integer difference, which may be negative. -/
theorem intCast_wrapSub (a b : Byte) : ((wrapSub a b).toNat : Int) = ((a.toNat : Int) - b.toNat) % 256 := by
  have := b.isLt
  rw [toNat_wrapSub]
  omega

/-- The source of the shifts by mode (42_alu.md rules R148, R150). -/
theorem toNat_shiftSource (s : State) (x y : Reg) :
    (shiftSource s x y).toNat = if s.mode = .legacy then (getV s y).toNat else (getV s x).toNat := by
  cases h : s.mode <;> simp [shiftSource, h]

/-! ### The instructions -/

/-- Settles O16: each is a write of `V[X]` alone. -/
theorem copiesWriteOnlyVX : Obligations.CopiesWriteOnlyVX := by
  intro x y nn s
  refine ⟨?literal, ?register, ?timer⟩
  case literal | register | timer => exact next_setV_advance id s x rfl

/-- Settles O17: a write of the wrapped sum to `V[X]` alone. -/
theorem addLiteralSetsNoFlag : Obligations.AddLiteralSetsNoFlag := by
  intro x nn s
  exact next_setV_advance BitVec.toNat s x (toNat_wrapAdd (getV s x) nn)

/-- Settles O18: the three share the clearing of VF. -/
theorem logicZeroesVFInLegacyOnly : Obligations.LogicZeroesVFInLegacyOnly := by
  intro x y s
  refine ⟨?or, ?and, ?xor⟩
  case or | and | xor => exact next_legacyClearVF_setV_advance s x _

/-- Settles O19: the sum, then the carry. -/
theorem addSetsCarry : Obligations.AddSetsCarry := by
  intro x y s
  exact next_setVThenVF_advance BitVec.toNat s x (toNat_wrapAdd _ _) (toNat_flagByte_decide _)

/-- Settles O20: the difference, then the no-borrow flag; the two directions differ in the operands' order only. -/
theorem subtractsSetNoBorrow : Obligations.SubtractsSetNoBorrow := by
  intro x y s
  refine ⟨?sub, ?subn⟩
  case sub | subn =>
    exact next_setVThenVF_advance (fun b => (b.toNat : Int)) s x (intCast_wrapSub _ _) (intCast_flagByte_noBorrow _ _)

/-- Settles O21: the source halved or doubled, then the bit shifted out. -/
theorem shiftsTakeTheirSourceByMode : Obligations.ShiftsTakeTheirSourceByMode := by
  intro x y s src hsrc
  rw [← toNat_shiftSource] at hsrc
  subst hsrc
  constructor
  · exact next_setVThenVF_advance BitVec.toNat s x (toNat_shiftRightOne _) (toNat_flagByte_lowBit _)
  · exact next_setVThenVF_advance BitVec.toNat s x (toNat_shiftLeftOne _) (toNat_flagByte_highBit _)

end Sys2Proof.Machine
end

section
/-! The index register and the transfers between registers and memory (43_index_memory.md rules R160 to R165): the new I
as a number, what FX33 and FX55 leave in memory, and the range check that the three transfers share. -/

namespace Sys2Proof.Machine

/-! ### The index register -/

/-- The sum of FX1E, modulo 65536. -/
theorem toNat_add_widen (w : Word) (b : Byte) : (w + widen b).toNat = (w.toNat + b.toNat) % 65536 := by
  rw [BitVec.toNat_add, toNat_widen]

/-- The product of FX29 is never reduced: the greatest is 255 * 5. -/
theorem toNat_ofNat_mul_five (b : Byte) : (BitVec.ofNat 16 (b.toNat * 5)).toNat = b.toNat * 5 := by
  have := b.isLt
  exact Nat.mod_eq_of_lt (by omega)

/-- Settles O22: the three meanings are one update of `pc` and I, with the new I as a number. -/
theorem indexWritesOnlyI : Obligations.IndexWritesOnlyI := by
  intro nnn x s
  refine ⟨?literal, ?sum, ?glyph⟩
  case literal => exact ⟨setIndex (advance s) (addressOf nnn), rfl, rfl, toNat_addressOf nnn⟩
  case sum => exact ⟨setIndex (advance s) (s.index + widen (getV s x)), rfl, rfl, toNat_add_widen _ _⟩
  case glyph =>
    exact ⟨setIndex (advance s) (BitVec.ofNat 16 ((getV s x).toNat * 5)), rfl, rfl, toNat_ofNat_mul_five _⟩

/-- I after a transfer of `n + 1` bytes inside memory: the address past the last byte is at most 0x1000, so the sum of
legacy mode does not wrap. -/
theorem toNat_indexAfterTransfer (s : State) (n : Nat) (h : baseAddress s + n < 0x1000) :
    (indexAfterTransfer s (n + 1)).toNat = if s.mode = .legacy then s.index.toNat + n + 1 else s.index.toNat := by
  have hsum : s.index.toNat + n < 0x1000 := h
  cases hmode : s.mode with
  | modern => simp [indexAfterTransfer, hmode]
  | legacy =>
    simp only [indexAfterTransfer, hmode, if_true, BitVec.toNat_add, BitVec.toNat_ofNat]
    omega

/-! ### The range check of a transfer -/

/-- A transfer whose last byte is in memory runs. -/
theorem withRange_last_inside (i : Instr) (s : State) (base n : Nat) (run : State) (h : base + n < 0x1000) :
    withRange i s base (n + 1) run = .next run :=
  withRange_inside i s base (n + 1) run (Or.inr h)

/-- A transfer whose last byte is out of range records the fault and changes nothing else (60_exceptions.md rule
R223). -/
theorem withRange_last_outside (i : Instr) (s : State) (base n : Nat) (run : State) (h : 0x1000 ≤ base + n) :
    withRange i s base (n + 1) run = .next { s with
      fault := some { cause := .memoryBounds (max base 0x1000), addr := s.pc, opcode := some (encode i) } } := by
  have houtside : ¬(n + 1 = 0 ∨ base + (n + 1) ≤ memSize) := by
    simp only [memSize]
    omega
  exact withRange_outside i s base (n + 1) run houtside

/-! ### FX33 -/

theorem toNat_hundreds (b : Byte) : (hundreds b).toNat = b.toNat / 100 := by
  have := b.isLt
  exact Nat.mod_eq_of_lt (by omega)

theorem toNat_tens (b : Byte) : (tens b).toNat = b.toNat / 10 % 10 := Nat.mod_eq_of_lt (by omega)

theorem toNat_ones (b : Byte) : (ones b).toNat = b.toNat % 10 := Nat.mod_eq_of_lt (by omega)

/-- What FX33's stores leave at every address. -/
theorem read_storeDigits (s : State) (a a' : Nat) (b : Byte) :
    (storeDigits s a b).mem.read a' =
      if a' = a + 2 then ones b else if a' = a + 1 then tens b else if a' = a then hundreds b else s.mem.read a' := by
  simp only [storeDigits, storeByte_mem, Memory.read_write]

theorem read_storeDigits_outside (s : State) {a a' : Nat} (b : Byte) (h : a' < a ∨ a + 2 < a') :
    (storeDigits s a b).mem.read a' = s.mem.read a' := by
  rw [read_storeDigits, if_neg (by omega), if_neg (by omega), if_neg (by omega)]

/-- Settles O23: the three stores inside memory, the fault outside. -/
theorem storesDecimalDigits : Obligations.StoresDecimalDigits := by
  intro x s
  constructor
  · intro hinside
    refine ⟨storeDigits (advance s) (baseAddress s) (getV s x), withRange_last_inside _ s _ 2 _ hinside, rfl,
      ?hundreds, ?tens, ?ones, fun a ha => read_storeDigits_outside (advance s) _ ha⟩
    case hundreds => simp [read_storeDigits, toNat_hundreds]
    case tens => simp [read_storeDigits, toNat_tens]
    case ones => simp [read_storeDigits, toNat_ones]
  · intro houtside
    exact withRange_last_outside _ s _ 2 _ houtside

/-! ### FX55 and FX65 -/

/-- FX55's stores leave every other address alone. -/
theorem read_storeRegs_outside (v : Vector Byte 16) {base n a : Nat} (h : n + 1 ≤ 16) (m : Memory)
    (ha : a < base ∨ base + n < a) : (storeRegs v base (n + 1) h m).read a = m.read a := by
  rw [read_storeRegs, dif_neg (by omega)]

/-- Settles O24: the stores and the new I inside memory, the fault outside. -/
theorem storesRegisters : Obligations.StoresRegisters := by
  intro x s
  constructor
  · intro hinside
    refine ⟨_, withRange_last_inside _ s _ x.val _ hinside, rfl, ?stored, ?others,
      toNat_indexAfterTransfer s _ hinside⟩
    case stored => exact fun r hr => read_storeRegs_stored _ _ _ _ _ _ (Nat.lt_succ_of_le hr)
    case others => exact fun a ha => read_storeRegs_outside _ _ _ ha
  · intro houtside
    exact withRange_last_outside _ s _ x.val _ houtside

/-- FX65's loads, register by register: up to `X` from memory, above `X` as before. -/
theorem getElem_loadRegs_le (m : Memory) (base : Nat) (x r : Reg) (v : Vector Byte 16) :
    (loadRegs m base (x.val + 1) x.isLt v)[r.val] = if r.val ≤ x.val then m.read (base + r.val) else v[r.val] := by
  rw [getElem_loadRegs, if_congr Nat.lt_succ_iff rfl rfl]

/-- Settles O25: the loads and the new I inside memory, the fault outside. -/
theorem loadsRegisters : Obligations.LoadsRegisters := by
  intro x s
  constructor
  · intro hinside
    refine ⟨_, withRange_last_inside _ s _ x.val _ hinside, rfl, ?loaded, toNat_indexAfterTransfer s _ hinside⟩
    case loaded => exact fun r => getElem_loadRegs_le s.mem (baseAddress s) x r s.v
  · intro houtside
    exact withRange_last_outside _ s _ x.val _ houtside

end Sys2Proof.Machine
end

section
/-! The display instructions (44_display.md rules R176 to R178): the Sprite Renderer's work for one DXYN as a formula over
pixels and a condition for the collision flag, and the state that a draw leaves, for one draw and for two in a row. -/

namespace Sys2Proof.Machine

/-- Settles O28: the display is the blank one. -/
theorem clearTurnsEveryPixelOff : Obligations.ClearTurnsEveryPixelOff := by
  intro s
  exact ⟨_, rfl, rfl, fun y x _ _ => pixel_blankDisplay y x⟩

/-! ### The renderer's work for one DXYN -/

/-- The bit of DXYN's sprite on a pixel, from the origin, address and rows that the state gives. -/
def drawBit (s : State) (x y : Reg) (n : BitVec 4) (py px : Nat) : Bool :=
  spriteBit s.mem (baseAddress s) (originY s y) (originX s x) (visibleRows s y n) py px

theorem spriteBit_eq_true_iff (m : Memory) (base y0 x0 rows y x : Nat) :
    spriteBit m base y0 x0 rows y x = true ↔
      (y0 ≤ y ∧ y < y0 + rows ∧ x0 ≤ x ∧ x < x0 + 8) ∧ (m.read (base + (y - y0))).getLsbD (7 - (x - x0)) = true := by
  rw [spriteBit, Bool.and_eq_true, decide_eq_true_iff]

theorem originY_add_visibleRows_le (s : State) (y : Reg) (n : BitVec 4) : originY s y + visibleRows s y n ≤ 32 := by
  have horigin : originY s y < 32 := Nat.mod_lt _ (by decide)
  simp only [visibleRows, displayHeight]
  omega

/-- The renderer inverts exactly the pixels under a sprite bit of 1. -/
theorem pixel_blit (s : State) (x y : Reg) (n : BitVec 4) (py px : Nat) (hpx : px < 64) :
    pixel (blit s x y n).disp py px = (pixel s.disp py px ^^ drawBit s x y n py px) := by
  rw [blit, pixel_blitRows _ _ _ _ _ _ _ _ _ (originY_add_visibleRows_le s y n)]
  simp only [drawBit, spriteBit, Nat.add_zero, hpx, and_true]

/-- The collision flag: a sprite bit of 1 met a pixel that was on. -/
theorem collision_blit_iff (s : State) (x y : Reg) (n : BitVec 4) :
    (blit s x y n).collision = true ↔
      ∃ py px, py < 32 ∧ px < 64 ∧ drawBit s x y n py px = true ∧ pixel s.disp py px = true := by
  have hrows := originY_add_visibleRows_le s y n
  rw [blit, collision_blitRows _ _ _ _ _ _ _ hrows]
  simp only [drawBit, spriteBit_eq_true_iff, Nat.add_zero, Bool.false_eq_true, false_or]
  refine exists₂_congr fun py px => ⟨?_, ?_⟩
  · rintro ⟨hy, hy', hx, hx', hpx, hbit, hon⟩
    exact ⟨by omega, hpx, ⟨⟨hy, hy', hx, hx'⟩, hbit⟩, hon⟩
  · rintro ⟨-, hpx, ⟨⟨hy, hy', hx, hx'⟩, hbit⟩, hon⟩
    exact ⟨hy, hy', hx, hx', hpx, hbit, hon⟩

/-! ### The state after one draw -/

/-- The state that DXYN leaves when every visible row is in memory. -/
def drawn (x y : Reg) (n : BitVec 4) (s : State) : State :=
  { setVF (advance s) (blit s x y n).collision with disp := (blit s x y n).disp, redraw := true }

theorem exec_drw_inside {x y : Reg} {n : BitVec 4} {s : State}
    (h : visibleRows s y n = 0 ∨ baseAddress s + visibleRows s y n ≤ memSize) :
    exec (.drw x y n) s = .next (drawn x y n s) :=
  withRange_inside (.drw x y n) s (baseAddress s) (visibleRows s y n) _ h

theorem exec_drw_outside {x y : Reg} {n : BitVec 4} {s : State} (hrows : 0 < visibleRows s y n)
    (hend : memSize < baseAddress s + visibleRows s y n) :
    exec (.drw x y n) s = .next (raiseAt (.drw x y n) s (.memoryBounds (max (baseAddress s) memSize))) :=
  withRange_outside (.drw x y n) s (baseAddress s) (visibleRows s y n) _ (by omega)

theorem pixel_drawn (x y : Reg) (n : BitVec 4) (s : State) (py px : Nat) (hpx : px < 64) :
    pixel (drawn x y n s).disp py px = (pixel s.disp py px ^^ drawBit s x y n py px) :=
  pixel_blit s x y n py px hpx

theorem getV_drawn_ne (x y : Reg) (n : BitVec 4) (s : State) {r : Reg} (hr : r ≠ 15) :
    getV (drawn x y n s) r = getV s r :=
  getV_setV_ne (advance s) vf r _ hr

theorem vf_drawn (x y : Reg) (n : BitVec 4) (s : State) :
    getV (drawn x y n s) 15 = flagByte (blit s x y n).collision :=
  getV_setV_same (advance s) vf _

theorem vf_drawn_eq_one {x y : Reg} {n : BitVec 4} {s : State}
    (h : ∃ py px, py < 32 ∧ px < 64 ∧ drawBit s x y n py px = true ∧ pixel s.disp py px = true) :
    getV (drawn x y n s) 15 = 1 := by
  rw [vf_drawn, (collision_blit_iff s x y n).mpr h]
  rfl

theorem vf_drawn_eq_zero {x y : Reg} {n : BitVec 4} {s : State}
    (h : ∀ py px, py < 32 → px < 64 → drawBit s x y n py px = true → pixel s.disp py px = false) :
    getV (drawn x y n s) 15 = 0 := by
  have hnone : (blit s x y n).collision = false := by
    rw [← Bool.not_eq_true, collision_blit_iff]
    rintro ⟨py, px, hpy, hpx, hbit, hon⟩
    exact Bool.false_ne_true ((h py px hpy hpx hbit).symm.trans hon)
  rw [vf_drawn, hnone]
  rfl

/-- Settles O29: the draw inside memory, the fault outside. -/
theorem drawXorsTheClippedSprite : Obligations.DrawXorsTheClippedSprite := by
  rintro x y n s _ _ _ rfl rfl rfl
  constructor
  · intro hinside
    exact ⟨drawn x y n s, exec_drw_inside hinside, rfl, fun py px _ hpx => pixel_drawn x y n s py px hpx,
      fun _ hr => getV_drawn_ne x y n s hr, vf_drawn_eq_one, vf_drawn_eq_zero⟩
  · intro hrows hend
    exact exec_drw_outside hrows hend

/-! ### Two draws in a row -/

section
variable {x y : Reg} (n : BitVec 4) (s : State)

theorem visibleRows_drawn (hy : y ≠ 15) : visibleRows (drawn x y n s) y n = visibleRows s y n := by
  rw [visibleRows, originY, getV_drawn_ne x y n s hy]
  rfl

/-- A draw leaves the sprite of the next one where it is, unless VF gives the origin. -/
theorem drawBit_drawn (hx : x ≠ 15) (hy : y ≠ 15) (py px : Nat) :
    drawBit (drawn x y n s) x y n py px = drawBit s x y n py px := by
  rw [drawBit, originY, originX, getV_drawn_ne x y n s hx, getV_drawn_ne x y n s hy, visibleRows_drawn n s hy]
  rfl

/-- The second draw inverts the same pixels again. -/
theorem disp_drawn_drawn (hx : x ≠ 15) (hy : y ≠ 15) : (drawn x y n (drawn x y n s)).disp = s.disp := by
  refine display_ext fun py px _ hpx => ?_
  rw [pixel_drawn _ _ _ _ _ _ hpx, pixel_drawn _ _ _ _ _ _ hpx, drawBit_drawn n s hx hy, Bool.xor_assoc, Bool.xor_self,
    Bool.xor_false]

/-- Under a sprite bit of 1 the second draw finds the opposite of the pixel before the first. -/
theorem pixel_drawn_of_drawBit {py px : Nat} (hpx : px < 64) (hbit : drawBit s x y n py px = true) :
    pixel (drawn x y n s).disp py px = !pixel s.disp py px := by
  rw [pixel_drawn _ _ _ _ _ _ hpx, hbit, Bool.xor_true]

end

/-- Settles O30: two draws that complete, the second over the inverted pixels. -/
theorem drawingTwiceRestoresTheDisplay : Obligations.DrawingTwiceRestoresTheDisplay := by
  rintro x y n s _ _ _ hx hy rfl rfl rfl hinside
  have hinside' : visibleRows (drawn x y n s) y n = 0
      ∨ baseAddress (drawn x y n s) + visibleRows (drawn x y n s) y n ≤ memSize := by
    rw [visibleRows_drawn n s hy]
    exact hinside
  refine ⟨drawn x y n s, drawn x y n (drawn x y n s), exec_drw_inside hinside, exec_drw_inside hinside',
    disp_drawn_drawn n s hx hy, rfl, ?someWasOff, ?allWereOn⟩
  case someWasOff =>
    rintro ⟨py, px, hpy, hpx, hbit, hoff⟩
    refine vf_drawn_eq_one ⟨py, px, hpy, hpx, (drawBit_drawn n s hx hy py px).trans hbit, ?_⟩
    rw [pixel_drawn_of_drawBit n s hpx hbit, hoff, Bool.not_false]
  case allWereOn =>
    intro hon
    refine vf_drawn_eq_zero fun py px hpy hpx hbit => ?_
    rw [drawBit_drawn n s hx hy] at hbit
    rw [pixel_drawn_of_drawBit n s hpx hbit, hon py px hpy hpx hbit, Bool.not_true]

end Sys2Proof.Machine
end

section
/-! The keypad, timer and random instructions (45_keypad_timer_random.md rules R190 to R198): the two answers of a keypad
skip, the four rows of FX0A as whole next states, and runs of an instruction that waits. -/

namespace Sys2Proof.Machine

/-! ### The keypad skips -/

/-- A register up to 15 names a key: the skip is on that key's level. -/
theorem skipOnKey_of_lt (i : Instr) (s : State) {vx : Byte} (level : Bool) (h : vx.toNat < 16) :
    skipOnKey i s vx level
      = .next { s with pc := if s.key[vx.toNat] = level then s.pc + 4 else s.pc + 2 } := by
  rw [skipOnKey, dif_pos h, skipIf_of_iff s beq_iff_eq]

/-- A register above 15 names no key (60_exceptions.md rule R224). -/
theorem skipOnKey_of_gt (i : Instr) (s : State) {vx : Byte} (level : Bool) (h : 15 < vx.toNat) :
    skipOnKey i s vx level = .next (raiseAt i s (.keyIndex vx)) :=
  dif_neg (Nat.not_lt_of_ge h)

/-- Settles O15: EX9E and EXA1 are the keypad skip on either level. -/
theorem keySkipsTestTheLevel : Obligations.KeySkipsTestTheLevel := by
  intro x s
  constructor
  · intro h
    exact ⟨skipOnKey_of_lt (.skp x) s true h, skipOnKey_of_lt (.sknp x) s false h⟩
  · intro h
    exact ⟨skipOnKey_of_gt (.skp x) s true h, skipOnKey_of_gt (.sknp x) s false h⟩

/-! ### The timers -/

/-- Settles O31: each meaning is by definition the advance and a write of one timer. -/
theorem timerWritesSetOneTimer : Obligations.TimerWritesSetOneTimer := by
  intro x s
  exact ⟨rfl, rfl⟩

/-! ### FX0A: the rows of its state machine

A row that waits rewinds the advance, so its next state has the `pc` of the state before. -/

theorem exec_ldVXK_idle_noKey (x : Reg) {s : State} (hwait : s.wait = .idle) (hup : ∀ k : Key, s.key[k.val] = false) :
    exec (.ldVXK x) s = .next s := by
  have h := execLdVXK_noKey x s hwait (firstPressed_none s.key hup)
  rwa [rewind_advance] at h

theorem exec_ldVXK_idle_pressed (x : Reg) {s : State} {k : Key} (hwait : s.wait = .idle) (hdown : s.key[k.val] = true)
    (hleast : ∀ j : Key, j < k → s.key[j.val] = false) :
    exec (.ldVXK x) s = .next { s with wait := .keyLatched k } := by
  have h := execLdVXK_press x s k hwait (firstPressed_least s.key k hdown hleast)
  rwa [rewind_advance] at h

theorem exec_ldVXK_latched_held (x : Reg) {s : State} {k : Key} (hwait : s.wait = .keyLatched k)
    (hdown : s.key[k.val] = true) : exec (.ldVXK x) s = .next s := by
  have h := execLdVXK_held x s k hwait hdown
  rwa [rewind_advance] at h

/-- The row that completes: the key's number goes to `V[X]` and the latch is free. -/
theorem exec_ldVXK_latched_released (x : Reg) {s : State} {k : Key} (hwait : s.wait = .keyLatched k)
    (hup : s.key[k.val] = false) :
    ∃ t, exec (.ldVXK x) s = .next t ∧ t = { s with pc := s.pc + 2, v := t.v, wait := .idle }
      ∧ ∀ r, (getV t r).toNat = if r = x then k.val else (getV s r).toNat := by
  have hnum : (BitVec.ofNat 8 k.val).toNat = k.val := Nat.mod_eq_of_lt (by omega)
  obtain ⟨_, ⟨⟩, -, hv⟩ := next_setV_advance BitVec.toNat s x hnum
  exact ⟨_, execLdVXK_release x s k hwait (Bool.eq_false_iff.mp hup), rfl, hv⟩

/-- Settles O32: the four rows. -/
theorem keyWaitFollowsItsStateMachine : Obligations.KeyWaitFollowsItsStateMachine := by
  intro x s
  refine ⟨?idleNoKey, ?idlePressed, ?latchedHeld, ?latchedReleased⟩
  case idleNoKey => exact exec_ldVXK_idle_noKey x
  case idlePressed => exact fun k => exec_ldVXK_idle_pressed x
  case latchedHeld => exact fun k => exec_ldVXK_latched_held x
  case latchedReleased => exact fun k => exec_ldVXK_latched_released x

/-! ### FX0A: one press and one release -/

/-- An instruction that changes nothing may run any number of times. -/
theorem execAll_replicate_of_fixed {i : Instr} {s : State} (h : exec i s = .next s) (n : Nat) :
    execAll (List.replicate n i) s = .next s := by
  induction n with
  | zero => rfl
  | succ n ih => rw [List.replicate_succ, execAll_cons_of_next _ h, ih]

/-- While a key is down alone, the first FX0A latches it and every further one waits for its release. -/
theorem execAll_ldVXK_down_alone (x : Reg) {s : State} {k : Key} (m : Nat) (hwait : s.wait = .idle)
    (hkey : ∀ j : Key, s.key[j.val] = decide (j = k)) :
    execAll (List.replicate (m + 1) (.ldVXK x)) s = .next { s with wait := .keyLatched k } := by
  have hdown : s.key[k.val] = true := (hkey k).trans (decide_eq_true rfl)
  have hleast : ∀ j : Key, j < k → s.key[j.val] = false := fun j hj => (hkey j).trans (decide_eq_false hj.ne)
  rw [List.replicate_succ, execAll_cons_of_next _ (exec_ldVXK_idle_pressed x hwait hdown hleast)]
  have hheld : exec (.ldVXK x) { s with wait := .keyLatched k } = .next { s with wait := .keyLatched k } :=
    exec_ldVXK_latched_held x (k := k) rfl hdown
  exact execAll_replicate_of_fixed hheld m

/-- Settles O33: the fixed state before the press, the latch while the key is down, the completion at its release, and
the fixed state again. -/
theorem onePressCompletesOneKeyWait : Obligations.OnePressCompletesOneKeyWait := by
  intro x x' k s n m hwait hup
  refine ⟨?before, ?down, ?release⟩
  case before => exact execAll_replicate_of_fixed (exec_ldVXK_idle_noKey x hwait hup) n
  case down =>
    refine execAll_ldVXK_down_alone x m hwait fun j => ?_
    rw [getElem_set_key, hup j]
    rfl
  case release =>
    obtain ⟨t, hstep, hframe, hv⟩ := exec_ldVXK_latched_released x (s := { s with wait := .keyLatched k }) rfl (hup k)
    have htwait : t.wait = .idle := by rw [hframe]
    have htkey : t.key = s.key := by rw [hframe]
    refine ⟨t, hstep, ?frame, (hv x).trans (if_pos rfl), exec_ldVXK_idle_noKey x' htwait fun j => ?stillUp⟩
    case frame => rw [hframe, ← hwait]
    case stillUp => rw [htkey, hup j]

/-! ### CXNN -/

theorem masked_and_mask {b c nn : Byte} (h : b = c &&& nn) : b &&& nn = b := by
  rw [h, BitVec.and_assoc, BitVec.and_self]

theorem toNat_masked_le {b c nn : Byte} (h : b = c &&& nn) : b.toNat ≤ nn.toNat := by
  rw [h, BitVec.toNat_and]
  exact Nat.and_le_right

/-- Settles O34: a write of `V[X]` and the count; the mask's facts hold for every byte drawn. -/
theorem randomIsMaskedFreeByte : Obligations.RandomIsMaskedFreeByte := by
  intro x nn s
  obtain ⟨_, ⟨⟩, -, hv⟩ := next_setV_advance id s x (b := Config.randomByte s.draws &&& nn) rfl
  have hx := (hv x).trans (if_pos rfl)
  refine ⟨_, rfl, rfl, hv, ?submask, ?bound⟩
  case submask => exact masked_and_mask hx
  case bound => exact toNat_masked_le hx

end Sys2Proof.Machine
end

section
/-! The unrecognized words (46_unrecognized.md rules R206, R207): which they are, and that `pc` alone advances. -/

namespace Sys2Proof.Machine

/-- Settles O5: each family's arm answers the no-op exactly on the family's class of unrecognized words. -/
theorem unrecognizedWordsAreNoOps : Obligations.UnrecognizedWordsAreNoOps := by
  intro w
  exact unrecognized_iff_decodeWord_nop w

/-- The no-op is the advance, whatever word it carries. -/
theorem exec_nop (w : Word) (s : State) : exec (.nop w) s = .next { s with pc := s.pc + 2 } := rfl

/-- Settles O9: a word that matches no row decodes to the no-op, which the engine step runs. -/
theorem unrecognizedWordOnlyAdvances : Obligations.UnrecognizedWordOnlyAdvances := by
  refine ⟨exec_nop, fun s w hfetch hnone => ?_⟩
  obtain ⟨-, hnoRow⟩ := everyWordSelectsOneRow w
  have hnop : decodeWord w = .nop w := hnoRow hnone
  rw [engineStep_of_fetch hfetch, hnop, exec_nop]

end Sys2Proof.Machine
end

section
/-! The fault record (60_exceptions.md rules R220, R230): an instruction leaves it alone or takes a fault of its one
cause, with nothing else of the step committed. -/

namespace Sys2Proof.Machine

/-! ### The cause of each instruction -/

/-- The fault that an instruction can raise in a state, with its item of information (60_exceptions.md rules R220,
R223, R224). -/
inductive Raises (s : State) : Instr → FaultCause → Prop where
  | call (nnn : BitVec 12) : Raises s (.call nnn) .stackOverflow
  | ret : Raises s .ret .stackUnderflow
  | drw (x y : Reg) (n : BitVec 4) : Raises s (.drw x y n) (.memoryBounds (max (baseAddress s) memSize))
  | ldBVX (x : Reg) : Raises s (.ldBVX x) (.memoryBounds (max (baseAddress s) memSize))
  | storeVX (x : Reg) : Raises s (.storeVX x) (.memoryBounds (max (baseAddress s) memSize))
  | loadVX (x : Reg) : Raises s (.loadVX x) (.memoryBounds (max (baseAddress s) memSize))
  | skp (x : Reg) (h : 15 < (getV s x).toNat) : Raises s (.skp x) (.keyIndex (getV s x))
  | sknp (x : Reg) (h : 15 < (getV s x).toNat) : Raises s (.sknp x) (.keyIndex (getV s x))

/-- What an instruction with state `s` before it and `t` after it did to the fault record. -/
def FaultStep (i : Instr) (s t : State) : Prop := t.fault = s.fault ∨ ∃ c, Raises s i c ∧ t = raiseAt i s c

theorem faultStep_withRange {i : Instr} {s t run : State} {base count : Nat}
    (h : withRange i s base count run = .next t) (hrun : run.fault = s.fault)
    (hi : Raises s i (.memoryBounds (max base memSize))) : FaultStep i s t := by
  obtain ⟨-, rfl⟩ | ⟨-, rfl⟩ := withRange_cases h
  · exact Or.inl hrun
  · exact Or.inr ⟨_, hi, rfl⟩

theorem faultStep_skipOnKey {i : Instr} {s t : State} {vx : Byte} {level : Bool}
    (h : skipOnKey i s vx level = .next t) (hi : 15 < vx.toNat → Raises s i (.keyIndex vx)) : FaultStep i s t := by
  by_cases hvx : 15 < vx.toNat
  · rw [skipOnKey_of_gt i s level hvx] at h
    cases h
    exact Or.inr ⟨_, hi hvx, rfl⟩
  · rw [skipOnKey_of_lt i s level (by omega)] at h
    cases h
    exact Or.inl rfl

/-- Every instruction leaves the fault record alone or takes its fault. -/
theorem exec_faultStep {i : Instr} {s t : State} (h : exec i s = .next t) : FaultStep i s t := by
  cases i with
  | ret =>
    obtain rfl | ⟨top, -, rfl⟩ := execRet_cases h
    · exact Or.inr ⟨_, .ret, rfl⟩
    · exact Or.inl rfl
  | call nnn =>
    obtain rfl | ⟨-, rfl⟩ := execCall_cases h
    · exact Or.inr ⟨_, .call nnn, rfl⟩
    · exact Or.inl rfl
  | drw x y n => exact faultStep_withRange h rfl (.drw x y n)
  | ldBVX x => exact faultStep_withRange h rfl (.ldBVX x)
  | storeVX x => exact faultStep_withRange h rfl (.storeVX x)
  | loadVX x => exact faultStep_withRange h rfl (.loadVX x)
  | skp x => exact faultStep_skipOnKey h (.skp x)
  | sknp x => exact faultStep_skipOnKey h (.sknp x)
  | _ =>
    left
    rw [exec_frame h]
    rfl

/-- Settles O46: the fault that an instruction takes is its own. -/
theorem eachInstructionHasOneFaultCause : Obligations.EachInstructionHasOneFaultCause := by
  intro i s t r h hs ht
  obtain hkept | ⟨c, hc, rfl⟩ := exec_faultStep h
  · cases ht.symm.trans (hkept.trans hs)
  · cases ht
    cases hc with
    | call nnn => exact Or.inl ⟨rfl, nnn, rfl⟩
    | ret => exact Or.inr (Or.inl ⟨rfl, rfl⟩)
    | drw x y n => exact Or.inr (Or.inr (Or.inl ⟨rfl, Or.inl ⟨x, y, n, rfl⟩⟩))
    | ldBVX x => exact Or.inr (Or.inr (Or.inl ⟨rfl, Or.inr (Or.inl ⟨x, rfl⟩)⟩))
    | storeVX x => exact Or.inr (Or.inr (Or.inl ⟨rfl, Or.inr (Or.inr (Or.inl ⟨x, rfl⟩))⟩))
    | loadVX x => exact Or.inr (Or.inr (Or.inl ⟨rfl, Or.inr (Or.inr (Or.inr ⟨x, rfl⟩))⟩))
    | skp x hx => exact Or.inr (Or.inr (Or.inr ⟨x, rfl, hx, Or.inl rfl⟩))
    | sknp x hx => exact Or.inr (Or.inr (Or.inr ⟨x, rfl, hx, Or.inr rfl⟩))

/-! ### Nothing of a faulting step is committed -/

/-- An instruction that changes the fault record takes a fault. -/
theorem exec_fault_changed {i : Instr} {s t : State} (h : exec i s = .next t) (hne : t.fault ≠ s.fault) :
    ∃ c, t = raiseAt i s c := by
  obtain hkept | ⟨c, -, ht⟩ := exec_faultStep h
  · exact absurd hkept hne
  · exact ⟨c, ht⟩

/-- Settles O45: the fault taken is that of the fetch where `pc` cannot fetch, else that of the instruction fetched. -/
theorem faultCommitsNothing : Obligations.FaultCommitsNothing := by
  refine ⟨fun i s t h hne => ?ofInstr, fun s t h hne => ?ofStep⟩
  case ofInstr =>
    obtain ⟨c, rfl⟩ := exec_fault_changed h hne
    exact ⟨rfl, c, rfl⟩
  case ofStep =>
    by_cases hpc : s.pc.toNat + 1 < memSize
    · have hpc' : s.pc.toNat + 1 < 0x1000 := hpc
      rw [engineStep_of_fetch (fetch_inside s hpc)] at h
      obtain ⟨c, rfl⟩ := exec_fault_changed h hne
      refine ⟨rfl, c, _, rfl, ?_⟩
      simp only [reduceCtorEq, false_iff]
      omega
    · have hpc' : ¬s.pc.toNat + 1 < 0x1000 := hpc
      rw [engineStep_outside s (Nat.le_of_not_lt hpc)] at h
      cases h
      exact ⟨rfl, _, none, rfl, by simp only [true_iff]; omega⟩

end Sys2Proof.Machine
end

section
/-! Every instruction answers (70_reset_and_hazards.md rule R283), and what no instruction reads: ST, the tone, redraw
(60_exceptions.md rule R227) and the queue of host events. -/

namespace Sys2Proof.Machine

/-! ### Every instruction answers a next state -/

theorem execRet_answers (s : State) : ∃ t, execRet s = .next t := by
  cases h : s.stack.getLast? with
  | none => exact ⟨_, execRet_empty s h⟩
  | some top => exact ⟨_, execRet_top s top h⟩

theorem execCall_answers (nnn : BitVec 12) (s : State) : ∃ t, execCall nnn s = .next t := by
  by_cases h : s.params.stackDepth ≤ s.stack.length
  · exact ⟨_, execCall_full nnn s h⟩
  · exact ⟨_, execCall_room nnn s h⟩

theorem execLdVXK_answers (x : Reg) (s : State) : ∃ t, execLdVXK x s = .next t := by
  cases hw : s.wait with
  | idle =>
    cases hk : firstPressed s.key with
    | none => exact ⟨_, execLdVXK_noKey x s hw hk⟩
    | some k => exact ⟨_, execLdVXK_press x s k hw hk⟩
  | keyLatched k =>
    by_cases hk : s.key[k.val] = true
    · exact ⟨_, execLdVXK_held x s k hw hk⟩
    · exact ⟨_, execLdVXK_release x s k hw hk⟩

theorem exec_answers (i : Instr) (s : State) : ∃ t, exec i s = .next t := by
  cases i with
  | ret => exact execRet_answers s
  | call nnn => exact execCall_answers nnn s
  | ldVXK x => exact execLdVXK_answers x s
  | skp | sknp => exact skipOnKey_answers _ _ _ _
  | drw | ldBVX | storeVX | loadVX => exact withRange_answers _ _ _ _ _
  | _ => exact ⟨_, rfl⟩

/-- Settles O48, by the cases of the instruction: a fault is a next state too. -/
theorem everyInstructionAnswersNext : Obligations.EveryInstructionAnswersNext := exec_answers

theorem engineStep_answers (s : State) : ∃ t, engineStep s = .next t := by
  unfold engineStep
  split
  · exact ⟨_, rfl⟩
  · exact exec_answers _ _

/-! ### What no instruction reads -/

/-- The state with ST, the tone, redraw and the queue of host events changed, each by a function of its own. -/
def changeUnread (φ : Byte → Byte) (τ ρ : Bool → Bool) (κ : List HostEvent → List HostEvent) (s : State) :
    State :=
  { s with st := φ s.st, tone := τ s.tone, redraw := ρ s.redraw, pending := κ s.pending }

section
variable (φ : Byte → Byte) (τ ρ : Bool → Bool) (κ : List HostEvent → List HostEvent)

theorem skipIf_changeUnread (s : State) (c : Bool) :
    skipIf (changeUnread φ τ ρ κ s) c = changeUnread φ τ ρ κ (skipIf s c) := by
  rw [skipIf_eq, skipIf_eq]
  rfl

theorem legacyClearVF_changeUnread (s : State) :
    legacyClearVF (changeUnread φ τ ρ κ s) = changeUnread φ τ ρ κ (legacyClearVF s) := by
  cases h : s.mode with
  | legacy => rw [legacyClearVF_legacy s h, legacyClearVF_legacy (changeUnread φ τ ρ κ s) h]; rfl
  | modern => rw [legacyClearVF_modern s h, legacyClearVF_modern (changeUnread φ τ ρ κ s) h]

theorem execRet_changeUnread (s : State) :
    execRet (changeUnread φ τ ρ κ s) = mapNext (changeUnread φ τ ρ κ) (execRet s) := by
  cases h : s.stack.getLast? with
  | none => rw [execRet_empty s h, execRet_empty (changeUnread φ τ ρ κ s) h]; rfl
  | some top => rw [execRet_top s top h, execRet_top (changeUnread φ τ ρ κ s) top h]; rfl

theorem execCall_changeUnread (nnn : BitVec 12) (s : State) :
    execCall nnn (changeUnread φ τ ρ κ s) = mapNext (changeUnread φ τ ρ κ) (execCall nnn s) := by
  by_cases h : s.params.stackDepth ≤ s.stack.length
  · rw [execCall_full nnn s h, execCall_full nnn (changeUnread φ τ ρ κ s) h]; rfl
  · rw [execCall_room nnn s h, execCall_room nnn (changeUnread φ τ ρ κ s) h]; rfl

theorem execLdVXK_changeUnread (x : Reg) (s : State) :
    execLdVXK x (changeUnread φ τ ρ κ s) = mapNext (changeUnread φ τ ρ κ) (execLdVXK x s) := by
  cases hw : s.wait with
  | idle =>
    cases hk : firstPressed s.key with
    | none => rw [execLdVXK_noKey x s hw hk, execLdVXK_noKey x (changeUnread φ τ ρ κ s) hw hk]; rfl
    | some k => rw [execLdVXK_press x s k hw hk, execLdVXK_press x (changeUnread φ τ ρ κ s) k hw hk]; rfl
  | keyLatched k =>
    by_cases hk : s.key[k.val] = true
    · rw [execLdVXK_held x s k hw hk, execLdVXK_held x (changeUnread φ τ ρ κ s) k hw hk]; rfl
    · rw [execLdVXK_release x s k hw hk, execLdVXK_release x (changeUnread φ τ ρ κ s) k hw hk]; rfl

/-- The instructions that write ST or redraw. -/
def writesSoundOrRedraw : Instr → Bool
  | .cls | .drw _ _ _ | .ldSTVX _ => true
  | _ => false

/-- Every instruction commutes with a change of what it does not read, but for those that write ST or redraw. -/
theorem exec_changeUnread {i : Instr} (s : State) (hi : writesSoundOrRedraw i = false) :
    exec i (changeUnread φ τ ρ κ s) = mapNext (changeUnread φ τ ρ κ) (exec i s) := by
  cases i with
  | cls | drw | ldSTVX => cases hi
  | seNN | sneNN | seVY | sneVY => exact congrArg Host.Outcome.next (skipIf_changeUnread φ τ ρ κ s _)
  | orVY | andVY | xorVY =>
    exact congrArg Host.Outcome.next (legacyClearVF_changeUnread φ τ ρ κ (setV (advance s) _ _))
  | skp | sknp =>
    exact skipOnKey_mapNext _ _ s _ _ rfl (skipIf_changeUnread φ τ ρ κ s) fun _ => rfl
  | ldBVX | storeVX | loadVX => exact withRange_mapNext _ _ s _ _ _ _ rfl fun _ => rfl
  | ret => exact execRet_changeUnread φ τ ρ κ s
  | call nnn => exact execCall_changeUnread φ τ ρ κ nnn s
  | ldVXK x => exact execLdVXK_changeUnread φ τ ρ κ x s
  | _ => rfl

end

/-! ### ST, tone and redraw -/

/-- Two states that differ at most in ST, tone and redraw. -/
def SameButSound (t u : State) : Prop := u = { t with st := u.st, tone := u.tone, redraw := u.redraw }

/-- Two ranged instructions with the same range both run, or both fault. -/
theorem withRange_sameButSound {i : Instr} {s s' run run' : State} (base count : Nat) (hs : SameButSound s s')
    (hrun : SameButSound run run') :
    ∃ t u, withRange i s base count run = .next t ∧ withRange i s' base count run' = .next u ∧ SameButSound t u := by
  by_cases hr : count = 0 ∨ base + count ≤ memSize
  · exact ⟨_, _, withRange_inside _ _ _ _ _ hr, withRange_inside _ _ _ _ _ hr, hrun⟩
  · refine ⟨_, _, withRange_outside _ _ _ _ _ hr, withRange_outside _ _ _ _ _ hr, ?_⟩
    rw [hs]
    rfl

/-- Settles O53: an instruction that writes ST or redraw takes what it writes from the rest of the state, and every
other instruction commutes with the change. -/
theorem soundAndRedrawAreUnobservable : Obligations.SoundAndRedrawAreUnobservable := by
  intro i s st tone redraw
  cases hi : writesSoundOrRedraw i with
  | true =>
    cases i with
    | cls | ldSTVX => exact ⟨_, _, rfl, rfl, rfl⟩
    | drw => exact withRange_sameButSound _ _ rfl rfl
    | _ => cases hi
  | false =>
    obtain ⟨t, ht⟩ := exec_answers i s
    have hu := exec_changeUnread (fun _ => st) (fun _ => tone) (fun _ => redraw) id s hi
    rw [ht] at hu
    exact ⟨t, _, ht, hu, rfl⟩

end Sys2Proof.Machine
end

section
/-! The host events (60_exceptions.md rules R229 to R247): the tick and its timers, the strobes that pass without effect,
the key events, pause, handoff and quit, and the stop of a faulted machine. -/

namespace Sys2Proof.Machine

/-! ### An event at the head of the queue -/

/-- A step with a host event pending performs the oldest. -/
theorem step_pending {s : State} {e : HostEvent} {rest : List HostEvent} (h : s.pending = e :: rest) :
    step s = perform e { s with pending := rest } := by
  simp only [step, h]

theorem running_iff (s : State) : running s = true ↔ s.fault = none ∧ s.paused = false := by
  simp [running]

theorem perform_step_running {s : State} (h : running s = true) : perform .step s = engineStep s := if_pos h

theorem perform_tick_running {s : State} (h : running s = true) : perform .tick s = .next (tick s) := if_pos h

theorem perform_step_stopped {s : State} (h : ¬running s = true) : perform .step s = .next s := if_neg h

theorem perform_tick_stopped {s : State} (h : ¬running s = true) : perform .tick s = .next s := if_neg h

theorem not_running_of_paused {s : State} (h : s.paused = true) : ¬running s = true := by
  simp [running_iff, h]

theorem not_running_of_fault {s : State} {r : FaultRecord} (h : s.fault = some r) : ¬running s = true := by
  simp [running_iff, h]

/-- While the host has paused the machine, every event but those of an input poll passes without effect
(60_exceptions.md rule R241). -/
theorem perform_paused {s : State} (h : s.paused = true) {e : HostEvent} (he : ∀ i, e ≠ .input i) :
    perform e s = .next s := by
  cases e with
  | input i => exact absurd rfl (he i)
  | step => exact perform_step_stopped (not_running_of_paused h)
  | tick => exact perform_tick_stopped (not_running_of_paused h)
  | render => simp [perform, render, handsOver, h]

/-! ### The tick -/

theorem tone_tick_postDecrement {s : State} (h : s.params.audioGate = .postDecrement) :
    (tick s).tone = true ↔ 0 < (tick s).st.toNat := by
  simp only [tick_tone, tick_st, gate, h, decide_eq_true_iff]

theorem tone_tick_preDecrement {s : State} (h : s.params.audioGate = .preDecrement) :
    (tick s).tone = true ↔ 0 < s.st.toNat := by
  simp only [tick_tone, gate, h, decide_eq_true_iff]

/-- Settles O35: the strobe at the head of the queue is a tick of a machine that runs. -/
theorem tickDecrementsAndGates : Obligations.TickDecrementsAndGates := by
  intro s rest hfault hpaused hpending
  have hrun : running { s with pending := rest } = true := (running_iff _).mpr ⟨hfault, hpaused⟩
  refine ⟨_, (step_pending hpending).trans (perform_tick_running hrun), rfl, ?_, ?_, ?_, ?_⟩
  · exact toNat_countDown s.dt
  · exact toNat_countDown s.st
  · exact tone_tick_postDecrement
  · exact tone_tick_preDecrement

/-- One more tick, at the end. -/
theorem ticks_succ (n : Nat) (s : State) : ticks (n + 1) s = tick (ticks n s) := by
  induction n generalizing s with
  | zero => rfl
  | succ n ih => exact ih (tick s)

theorem ticks_params (n : Nat) (s : State) : (ticks n s).params = s.params := by
  induction n with
  | zero => rfl
  | succ n ih => rw [ticks_succ, tick_params, ih]

theorem toNat_ticks_dt (n : Nat) (s : State) : (ticks n s).dt.toNat = s.dt.toNat - n := by
  induction n with
  | zero => rfl
  | succ n ih => rw [ticks_succ, tick_dt, toNat_countDown, ih, Nat.sub_sub]

theorem toNat_ticks_st (n : Nat) (s : State) : (ticks n s).st.toNat = s.st.toNat - n := by
  induction n with
  | zero => rfl
  | succ n ih => rw [ticks_succ, tick_st, toNat_countDown, ih, Nat.sub_sub]

/-- Settles O36: the tone after some ticks is that of the last one, which finds ST at its start value less the ticks
before it. -/
theorem timersReachZeroAfterTheirTicks : Obligations.TimersReachZeroAfterTheirTicks := by
  intro n s
  refine ⟨toNat_ticks_dt n s, toNat_ticks_st n s, fun hn hgate => ?post, fun hn hgate => ?pre⟩
  all_goals
    obtain ⟨m, rfl⟩ : ∃ m, n = m + 1 := ⟨n - 1, by omega⟩
    rw [← ticks_params m s] at hgate
  case post => rw [ticks_succ, tone_tick_postDecrement hgate, ← ticks_succ, toNat_ticks_st, Nat.sub_pos_iff_lt]
  case pre => rw [ticks_succ, tone_tick_preDecrement hgate, toNat_ticks_st, Nat.sub_pos_iff_lt, Nat.succ_le_iff]

/-! ### Key events, pause, handoff and quit -/

/-- Settles O37: a key event writes one level of the keypad. -/
theorem keyEventSetsOneLevel : Obligations.KeyEventSetsOneLevel := by
  intro s k rest
  constructor
  · intro h
    exact ⟨_, step_pending h, rfl, fun j => getElem_set_key s.key k j true⟩
  · intro h
    exact ⟨_, step_pending h, rfl, fun j => getElem_set_key s.key k j false⟩

theorem step_paused {s : State} {e : HostEvent} {rest : List HostEvent} (hpaused : s.paused = true)
    (hpending : s.pending = e :: rest) (he : ∀ i, e ≠ .input i) : step s = .next { s with pending := rest } := by
  rw [step_pending hpending]
  exact perform_paused (s := { s with pending := rest }) hpaused he

/-- Settles O39: pause and resume write the flag, and while it is set the other events but those of a poll pass. -/
theorem pauseFreezesAllButInput : Obligations.PauseFreezesAllButInput := by
  intro s rest
  refine ⟨fun h => step_pending h, fun h => step_pending h, fun hpaused h => step_paused hpaused h nofun,
    fun hpaused h => step_paused hpaused h nofun, fun hpaused h => step_paused hpaused h nofun, ?idle⟩
  intro hpaused hfault hpending
  simp [step, freeRun, hpaused, hfault, hpending]

/-- The handoff of a machine neither faulted nor paused leaves redraw clear (60_exceptions.md rule R244). -/
theorem render_running {s : State} (h : running s = true) : render s = { s with redraw := false } := by
  obtain ⟨hfault, hpaused⟩ := (running_iff s).mp h
  cases hredraw : s.redraw with
  | true => simp [render, handsOver, hfault, hpaused, hredraw]
  | false => simp [render, handsOver, ← hredraw]

/-- Settles O40: the handoff clears redraw, and quit has no next state. -/
theorem handoffClearsRedrawAndQuitEnds : Obligations.HandoffClearsRedrawAndQuitEnds := by
  intro s rest
  refine ⟨fun hfault hpaused hpending => ?_, fun hpending => step_pending hpending⟩
  have hrun : running { s with pending := rest } = true := (running_iff _).mpr ⟨hfault, hpaused⟩
  exact (step_pending hpending).trans (congrArg Host.Outcome.next (render_running hrun))

/-! ### The stop of a faulted machine -/

/-- Settles O47: a faulted machine takes no step of its own and lets the strobes pass, and of the steps that answer only
the reset command touches the record. -/
theorem faultedMachineIsStopped : Obligations.FaultedMachineIsStopped := by
  intro s r hr
  refine ⟨fun hpending => ?idle, fun rest hpending => ?strobe, fun rest hpending => ?tick, fun t h => ?kept⟩
  case idle => simp only [step, freeRun, hpending, hr]
  case strobe => exact (step_pending hpending).trans (perform_step_stopped (not_running_of_fault hr))
  case tick => exact (step_pending hpending).trans (perform_tick_stopped (not_running_of_fault hr))
  case kept =>
    obtain ⟨hfault, -⟩ | ⟨mode, rest, hreset, -⟩ | ht := step_cases h
    · cases hr.symm.trans hfault
    · exact Or.inr ⟨mode, rest, hreset⟩
    · exact Or.inl (by rw [ht]; exact hr)

end Sys2Proof.Machine
end

section
/-! The loader and the reset command (60_exceptions.md rule R242, 70_reset_and_hazards.md rules R270, R271): which ROM is
loaded, what the memory built holds, and that the reset command gives the loaded machine again. -/

namespace Sys2Proof.Machine

/-! ### What the loader's memory holds -/

section
variable (rom : List Byte) (font : Vector Byte 80) (fill : Nat → Byte)

theorem imageByte_rom {j : Nat} (h : j < rom.length) : imageByte rom font fill (0x200 + j) = rom[j] := by
  simp [imageByte, programBase, h]

theorem imageByte_font {j : Nat} (h : j < 80) : imageByte rom font fill j = font[j] := by
  have hj : ¬(programBase ≤ j ∧ j < programBase + rom.length) := by
    simp only [programBase]
    omega
  rw [imageByte, if_neg hj, dif_pos h]

theorem imageByte_fill {a : Nat} (h : (80 ≤ a ∧ a < 0x200) ∨ (0x200 + rom.length ≤ a ∧ a < 0x1000)) :
    imageByte rom font fill a = fill a := by
  have hrom : ¬(programBase ≤ a ∧ a < programBase + rom.length) := by
    simp only [programBase]
    omega
  have hfont : ¬a < 80 := by omega
  rw [imageByte, if_neg hrom, dif_neg hfont]

theorem read_loadImage {a : Nat} (h : a < 0x1000) : (loadImage rom font fill).read a = imageByte rom font fill a := by
  have ha : 0 ≤ a ∧ a < 0 + memSize := by
    simpa [memSize] using h
  rw [loadImage, read_cellsFrom, if_pos ha]

end

/-! ### The loader -/

/-- Every register of State.reset is 0. -/
theorem getV_reset (r : Reg) : getV State.reset r = 0 := Vector.getElem_replicate r.isLt

/-- Every key of State.reset is up. -/
theorem key_reset (k : Key) : State.reset.key[k.val] = false := Vector.getElem_replicate k.isLt

/-- Settles O42: the memory is the loader's image, every other element is that of State.reset. -/
theorem loaderBuildsTheResetState : Obligations.LoaderBuildsTheResetState := by
  intro rom font fill mode params hrom hdepth
  refine ⟨_, (loadRom_eq_some_iff rom font fill mode params _).mpr ⟨hrom, hdepth, rfl⟩, fun j hj => ?rom,
    fun j hj => ?font, fun a ha => ?fill, getV_reset, rfl, rfl, rfl, rfl, rfl, rfl, pixel_blankDisplay, rfl, key_reset,
    rfl, rfl, rfl, rfl, rfl, rfl, rfl, rfl⟩
  case rom => exact (read_loadImage rom font fill (by omega)).trans (imageByte_rom rom font fill hj)
  case font => exact (read_loadImage rom font fill (by omega)).trans (imageByte_font rom font fill hj)
  case fill => exact (read_loadImage rom font fill (by omega)).trans (imageByte_fill rom font fill ha)

/-- Settles O43: the loader builds a machine exactly of a ROM within the bound and a STACK_DEPTH of at least 1. -/
theorem oversizedRomIsRejected : Obligations.OversizedRomIsRejected := by
  intro rom font fill mode params
  have hbuilt : (loadRom rom font fill mode params).isSome = true ↔ rom.length ≤ 3584 ∧ 1 ≤ params.stackDepth := by
    simp [Option.isSome_iff_exists, loadRom_eq_some_iff, maxRom]
  rw [← Option.not_isSome_iff_eq_none, hbuilt]
  omega

/-! ### The reset command -/

/-- A reset against the image of a loaded machine gives that machine again, in the commanded mode; what the reset keeps
is that of the state before it. -/
theorem resetMachine_of_loadRom {rom : List Byte} {font : Vector Byte 80} {fill : Nat → Byte} {before : Mode}
    {s u : State} (mode : Mode) (h : loadRom rom font fill before s.params = some u) (himage : s.image = u.mem) :
    resetMachine mode s = { u with mode := mode, paused := s.paused, pending := s.pending, draws := s.draws } := by
  obtain ⟨-, -, rfl⟩ := (loadRom_eq_some_iff _ _ _ _ _ _).mp h
  rw [resetMachine, himage]

/-- Settles O38: the step is the reset of the machine with the command taken from the queue. -/
theorem resetCommandRestoresEveryElement : Obligations.ResetCommandRestoresEveryElement := by
  intro s mode rest hpending
  refine ⟨_, step_pending hpending, rfl, getV_reset, rfl, rfl, rfl, rfl, rfl, pixel_blankDisplay, key_reset, rfl, rfl,
    rfl, rfl, rfl, rfl, rfl, rfl, rfl, rfl, fun rom font fill before u h himage => ?_⟩
  exact resetMachine_of_loadRom (s := { s with pending := rest }) mode h himage

end Sys2Proof.Machine
end

section
/-! The settled run (70_reset_and_hazards.md rule R282): a jump to itself is a fixed point of the step, and the tick and
the handoff leave what makes it one. -/

namespace Sys2Proof.Machine

/-- That a run has settled is a matter of memory, `pc` and the latch. -/
theorem Settled.congr {s t : State} (hs : Settled s) (hmem : t.mem = s.mem) (hpc : t.pc = s.pc)
    (hwait : t.wait = s.wait) : Settled t := by
  rw [Settled, hwait, fetch_congr hmem hpc, hpc]
  exact hs

/-- A jump to the address in `pc` changes nothing (40_flow.md rule R121). -/
theorem exec_jp_self {nnn : BitVec 12} {s : State} (h : addressOf nnn = s.pc) : exec (.jp nnn) s = .next s := by
  have hjp : exec (.jp nnn) s = .next { s with pc := addressOf nnn } := rfl
  rw [hjp, h]

theorem Settled.engineStep_eq {s : State} (hs : Settled s) : engineStep s = .next s := by
  obtain ⟨-, w, nnn, hfetch, hdecode, hself⟩ := hs
  rw [engineStep_of_fetch hfetch, hdecode, exec_jp_self hself]

theorem Settled.freeRun_eq {s : State} (hs : Settled s) (hfault : s.fault = none) : freeRun s = .next s := by
  simp only [freeRun, hfault, hs.engineStep_eq, ite_self]

/-- Settles O54: the jump is to itself, and the tick and the handoff touch neither memory, `pc` nor the latch. -/
theorem settledStateIsAFixedPoint : Obligations.SettledStateIsAFixedPoint := by
  intro s hs
  refine ⟨hs.engineStep_eq, hs.congr rfl rfl rfl, ?render, fun hfault hpending => ?step⟩
  case render =>
    rw [render_frame]
    exact hs.congr rfl rfl rfl
  case step =>
    rw [← hs.freeRun_eq hfault]
    simp only [step, hpending]

end Sys2Proof.Machine
end

section
/-! One frame of the Frame Driver (60_exceptions.md rule R238): its events, taken from the queue one by one, do what the
frame run directly does. First the queue is taken out of the run, since no event's meaning reads it; then the frame's
events are performed part by part: the poll, the step strobes, the tick and the handoff. -/

namespace Sys2Proof.Machine

/-! ### The queue plays no part in an event's meaning -/

/-- The state with another queue of host events. -/
def withQueue (queue : List HostEvent) (s : State) : State := { s with pending := queue }

theorem withQueue_of_pending {queue : List HostEvent} {s : State} (h : s.pending = queue) : withQueue queue s = s := by
  rw [withQueue, ← h]

section
variable (queue : List HostEvent)

/-- A change of the queue alone is one of those that commute with the instructions which do not write ST or redraw. The
writes of the others do not touch the queue. -/
theorem exec_withQueue (i : Instr) (s : State) :
    exec i (withQueue queue s) = mapNext (withQueue queue) (exec i s) := by
  cases hi : writesSoundOrRedraw i with
  | false => exact exec_changeUnread id id id (fun _ => queue) s hi
  | true =>
    cases i with
    | cls | ldSTVX => rfl
    | drw => exact withRange_mapNext (withQueue queue) _ s _ _ _ _ rfl fun _ => rfl
    | _ => cases hi

theorem engineStep_withQueue (s : State) :
    engineStep (withQueue queue s) = mapNext (withQueue queue) (engineStep s) := by
  have hsame : fetch (withQueue queue s) = fetch s := fetch_congr rfl rfl
  cases hfetch : fetch s with
  | error a => simp only [engineStep, hsame, hfetch]; rfl
  | ok w => rw [engineStep_of_fetch (hsame.trans hfetch), engineStep_of_fetch hfetch, exec_withQueue]

theorem render_withQueue (s : State) : render (withQueue queue s) = withQueue queue (render s) :=
  (apply_ite (withQueue queue) (handsOver s = true) { s with redraw := false } s).symm

theorem perform_withQueue (e : HostEvent) (s : State) :
    perform e (withQueue queue s) = mapNext (withQueue queue) (perform e s) := by
  cases e with
  | input i => cases i <;> rfl
  | render => exact congrArg Host.Outcome.next (render_withQueue queue s)
  | step =>
    by_cases hrun : running s = true
    · rw [perform_step_running hrun, ← engineStep_withQueue]
      exact perform_step_running hrun
    · rw [perform_step_stopped hrun]
      exact perform_step_stopped hrun
  | tick =>
    by_cases hrun : running s = true
    · rw [perform_tick_running hrun]
      exact perform_tick_running hrun
    · rw [perform_tick_stopped hrun]
      exact perform_tick_stopped hrun

end

/-! ### The run performs the events one after the other -/

/-- An outcome, continued from its next state where it has one. -/
def bindNext (o : Result) (k : State → Result) : Result :=
  match o with
  | .next t => k t
  | .fault r => .fault r
  | .refused r => .refused r

@[simp] theorem bindNext_next (t : State) (k : State → Result) : bindNext (.next t) k = k t := rfl

@[simp] theorem bindNext_refused (r : Refusal) (k : State → Result) : bindNext (.refused r) k = .refused r := rfl

theorem bindNext_mapNext (f : State → State) (o : Result) (k : State → Result) :
    bindNext (mapNext f o) k = bindNext o fun t => k (f t) := by
  cases o <;> rfl

/-- Host events performed one after the other, as long as each answers a next state. -/
def performAll : List HostEvent → State → Result
  | [], s => .next s
  | e :: es, s => bindNext (perform e s) (performAll es)

theorem performAll_cons_of_next {e : HostEvent} {s t : State} (es : List HostEvent) (h : perform e s = .next t) :
    performAll (e :: es) s = performAll es t := by
  rw [performAll, h, bindNext_next]

/-- A run of the machine, at the model's own types. -/
def runSteps (n : Nat) (s : State) : Result := Host.Core.run core n s

theorem runSteps_succ (n : Nat) (s : State) : runSteps (n + 1) s = bindNext (step s) (runSteps n) := by
  have hstep : core.step s = step s := rfl
  refine (run_succ core n s).trans ?_
  rw [hstep]
  cases step s <;> rfl

/-- As many steps as events are pending perform these events. -/
theorem runSteps_withQueue (es : List HostEvent) (s : State) :
    runSteps es.length (withQueue es s) = performAll es (withQueue [] s) := by
  induction es generalizing s with
  | nil => rfl
  | cons e es ih =>
    have hstep : step (withQueue (e :: es) s) = perform e (withQueue es s) :=
      step_pending (s := withQueue (e :: es) s) rfl
    calc runSteps (es.length + 1) (withQueue (e :: es) s)
      _ = bindNext (perform e s) fun t => runSteps es.length (withQueue es t) := by
        rw [runSteps_succ, hstep, perform_withQueue, bindNext_mapNext]
      _ = bindNext (perform e s) fun t => performAll es (withQueue [] t) := by
        rw [funext ih]
      _ = performAll (e :: es) (withQueue [] s) := by
        rw [performAll, perform_withQueue, bindNext_mapNext]

/-! ### The parts of a frame -/

/-- A frame's end as the answer of a run: its state, or the refusal at the host's quit. -/
def frameResult : Option State → Result
  | some t => .next t
  | none => .refused .quit

theorem performInput_quit_or_next (e : InputEvent) (s : State) :
    performInput e s = .refused .quit ∨ ∃ t, performInput e s = .next t ∧ t.params = s.params := by
  cases e with
  | quit => exact Or.inl rfl
  | _ => exact Or.inr ⟨_, rfl, rfl⟩

/-- The events of the poll are the poll; at the host's quit the rest of the frame is not performed. -/
theorem performAll_poll (poll : List InputEvent) (s : State) :
    (pollAll poll s = none ∧ ∀ es, performAll (poll.map .input ++ es) s = .refused .quit)
      ∨ ∃ t, pollAll poll s = some t ∧ t.params = s.params
          ∧ ∀ es, performAll (poll.map .input ++ es) s = performAll es t := by
  induction poll generalizing s with
  | nil => exact Or.inr ⟨s, rfl, rfl, fun _ => rfl⟩
  | cons e poll ih =>
    obtain hquit | ⟨t, ht, hparams⟩ := performInput_quit_or_next e s
    · left
      simp [pollAll, performAll, perform, hquit]
    · simpa [pollAll, performAll, perform, ht, ← hparams] using ih t

theorem performAll_paused {t : State} (h : t.paused = true) {es : List HostEvent}
    (hes : ∀ e ∈ es, ∀ i, e ≠ .input i) : performAll es t = .next t := by
  induction es with
  | nil => rfl
  | cons e es ih =>
    rw [performAll_cons_of_next es (perform_paused h (hes e (by simp)))]
    exact ih fun e' he' => hes e' (by simp [he'])

theorem exec_paused {i : Instr} {s t : State} (h : exec i s = .next t) : t.paused = s.paused := by
  rw [exec_frame h]
  cases i <;> rfl

theorem engineStep_paused {s t : State} (h : engineStep s = .next t) : t.paused = s.paused := by
  obtain ⟨a, rfl⟩ | ⟨w, -, hx⟩ := engineStep_cases h
  · rfl
  · exact exec_paused hx

theorem stepsUpTo_of_fault {s : State} {r : FaultRecord} (h : s.fault = some r) (n : Nat) :
    stepsUpTo n s = some s := by
  cases n with
  | zero => rfl
  | succ n => simp only [stepsUpTo, h]

theorem stepsUpTo_succ {s t : State} (n : Nat) (hfault : s.fault = none) (h : engineStep s = .next t) :
    stepsUpTo (n + 1) s = stepsUpTo n t := by
  simp only [stepsUpTo, hfault, h]

/-- `n` step strobes are up to `n` engine steps: those after a fault pass without effect. -/
theorem performAll_steps (n : Nat) {s : State} (hpaused : s.paused = false) (es : List HostEvent) :
    ∃ t, stepsUpTo n s = some t ∧ t.paused = false
      ∧ performAll (List.replicate n .step ++ es) s = performAll es t := by
  induction n generalizing s with
  | zero => exact ⟨s, rfl, hpaused, rfl⟩
  | succ n ih =>
    rw [List.replicate_succ, List.cons_append]
    cases hfault : s.fault with
    | some r =>
      rw [performAll_cons_of_next _ (perform_step_stopped (not_running_of_fault hfault)),
        stepsUpTo_of_fault hfault (n + 1), ← stepsUpTo_of_fault hfault n]
      exact ih hpaused
    | none =>
      obtain ⟨t, ht⟩ := engineStep_answers s
      have hrun : running s = true := (running_iff s).mpr ⟨hfault, hpaused⟩
      rw [performAll_cons_of_next _ ((perform_step_running hrun).trans ht), stepsUpTo_succ n hfault ht]
      exact ih ((engineStep_paused ht).trans hpaused)

/-- The tick, which a fault keeps from having an effect, and the handoff. -/
theorem performAll_endFrame {s : State} (hpaused : s.paused = false) :
    performAll [.tick, .render] s = .next (endFrame s) := by
  cases hfault : s.fault with
  | none =>
    rw [performAll_cons_of_next _ (perform_tick_running ((running_iff s).mpr ⟨hfault, hpaused⟩))]
    simp only [endFrame, hfault]
    rfl
  | some r =>
    rw [performAll_cons_of_next _ (perform_tick_stopped (not_running_of_fault hfault))]
    simp only [endFrame, hfault]
    rfl

/-- The events of a frame do what the frame run directly does. -/
theorem performAll_frameEvents (poll : List InputEvent) (s : State) :
    performAll (frameEvents s.params poll) s = frameResult (frame poll s) := by
  rw [frameEvents, List.append_assoc]
  obtain ⟨hpoll, hquit⟩ | ⟨t, hpoll, hparams, hrest⟩ := performAll_poll poll s
  · simp only [hquit, frame, hpoll, frameResult]
  · simp only [hrest, frame, hpoll, ← hparams]
    cases hpaused : t.paused with
    | true =>
      refine performAll_paused hpaused ?_
      rintro e he i rfl
      simp at he
    | false =>
      obtain ⟨u, hsteps, hu, hperform⟩ := performAll_steps t.params.stepsPerFrame hpaused [.tick, .render]
      rw [hperform, performAll_endFrame hu, hsteps]
      rfl

/-- Settles O41: the run performs the frame's events, and these are the frame. -/
theorem frameEventsRunOneFrame : Obligations.FrameEventsRunOneFrame := by
  intro s poll hpending
  have hrun := runSteps_withQueue (frameEvents s.params poll) s
  rw [withQueue_of_pending hpending, performAll_frameEvents] at hrun
  refine hrun.trans ?_
  cases frame poll s <;> rfl

end Sys2Proof.Machine
end
